-- ==== Sys2Proof/Word.lean ====
section
/-! DEFINITION. The word and the Value of U128 CORE (spec/10_state.md R10, spec/00_scope.md R8). -/

namespace Sys2Proof

/-- "Word: one 64-bit unsigned storage unit" (R9). -/
abbrev Word := BitVec 64

/-- A Value: two words, always fully defined, with no other identity than its bits (R10). -/
structure Value where
  lo : Word
  hi : Word
deriving DecidableEq, Repr

namespace Value

/-- The number a Value represents, `lo + hi·2^64` (R10). -/
def toNat (v : Value) : Nat := v.lo.toNat + v.hi.toNat * 2 ^ 64

/-- The Value of a number reduced modulo 2^128. -/
def ofNat (n : Nat) : Value := ⟨BitVec.ofNat 64 n, BitVec.ofNat 64 (n / 2 ^ 64)⟩

/-- The minimum of the type, 0 (R22). -/
def min : Value := ⟨0, 0⟩

/-- The maximum of the type, both words all ones (R22). -/
def max : Value := ⟨BitVec.allOnes 64, BitVec.allOnes 64⟩

/-- The 128 bits of a Value, `hi` in bits 127 to 64 and `lo` in bits 63 to 0 (R18, R19). -/
def bits (v : Value) : BitVec 128 := v.hi ++ v.lo

end Value

end Sys2Proof
end

