-- ==== Sys2Proof/Config.lean ====
section
/-! DEFINITION. What is fixed for one unit: the floating-point formats and the shape of the parameter FP_ROUND
(spec/00_scope.md R6, spec/40_primitives.md R67, R68, spec/45_conversion_out.md R131).
The parameters LATENCY and HOST_BYTE_ORDER are read by no rule (R6) and have no counterpart here. -/

namespace Sys2Proof

/-- An IEEE754 format: width of the stored mantissa, bias, and the biased exponent that marks infinity and NaN.
The mantissa width is below 64, so that `1 << MW` is a word shift that R176 admits. -/
structure FpFormat where
  mw : Fin 64
  bias : Nat
  expMax : Nat
deriving DecidableEq, Repr

/-- binary32 (R67): `MW` = 23, `BIAS` = 127, `EXP_MAX` = 255. -/
def binary32 : FpFormat := ⟨23, 127, 255⟩

/-- binary64 (R68): `MW` = 52, `BIAS` = 1023, `EXP_MAX` = 2047. -/
def binary64 : FpFormat := ⟨52, 1023, 2047⟩

/-- The fields of a floating-point pattern: the sign, the biased exponent, the stored mantissa bits (R67, R68). -/
structure FpFields where
  sign : Bool
  exp : Nat
  man : Word
deriving DecidableEq, Repr

/-- A rounding rule, the shape of FP_ROUND (R131). It is asked only when a number is not representable, with the
significand kept, the part dropped below it and the number of bits dropped, and says whether to take the
representable number above (`true`) or the one below. -/
abbrev FpRound := (kept dropped bits : Nat) → Bool

end Sys2Proof
end

