-- ==== Sys2Proof/Syntax.lean ====
section
/-! DEFINITION. The commands of U128 CORE: one constructor of `Instr` per row of spec/opcode_table.json
(spec/30_encoding.md R40 to R46), and the assembler's lines and pseudo-instructions (R50, R51). -/

namespace Sys2Proof

/-- `CW`, the 16-bit control word (R41). -/
abbrev ControlWord := BitVec 16

/-- Where the left operand `X` comes from: port `A` (`acc` = 0) or register `R` (`acc` = 1) (R45). -/
inductive Left where
  | portA
  | regR
deriving DecidableEq, Repr

/-- The operations of the opcode map (R42), the three width-carrying ones once per width (R43). The right operand
is always port `B`, the result always goes to `R` (R45). ZERO reads no left operand and has no `acc` form (R47 d).
Every term stands for a legal control word: what R47 calls illegal cannot be written. -/
inductive Instr where
  | mulw (x : Left)
  | divw (x : Left)
  | clz (x : Left)
  | zero
  | set (x : Left)
  | cvtb (x : Left)
  | cvtu8 (x : Left)
  | cvtu16 (x : Left)
  | cvtu32 (x : Left)
  | cvtu64 (x : Left)
  | cvts8 (x : Left)
  | cvts16 (x : Left)
  | cvts32 (x : Left)
  | cvts64 (x : Left)
  | cvtf32 (x : Left)
  | cvtf64 (x : Left)
  | add (x : Left)
  | sub (x : Left)
  | mul (x : Left)
  | div (x : Left)
  | mod (x : Left)
  | shl (x : Left)
  | shr (x : Left)
  | and (x : Left)
  | or (x : Left)
  | xor (x : Left)
  | not (x : Left)
  | cmp (x : Left)
  | eq (x : Left)
  | ne (x : Left)
  | lt (x : Left)
  | le (x : Left)
  | gt (x : Left)
  | ge (x : Left)
  | trunc8 (x : Left)
  | trunc16 (x : Left)
  | trunc32 (x : Left)
  | trunc64 (x : Left)
  | fcvt32 (x : Left)
  | fcvt64 (x : Left)
deriving DecidableEq, Repr

/-- A command: a control word and the two operand values (R40). -/
structure Command where
  cw : ControlWord
  a : Value
  b : Value
deriving DecidableEq, Repr

/-- One line of the assembler (R50) as a tree: the operation with its left operand's kind, the left literal where
there is one, the right literal where there is one. -/
structure AsmLine where
  instr : Instr
  left : Option Value
  right : Option Value
deriving DecidableEq, Repr

/-- The left operand of an assembler line: `R` or a literal (R50). -/
inductive AsmLeft where
  | reg
  | lit (v : Value)
deriving DecidableEq, Repr

/-- The pseudo-instructions (R51). `word` is the mixed-width form `<OP> <left>, word` (R46): the operation with its
left operand's kind, the left literal where there is one, and the word. -/
inductive Pseudo where
  | min
  | max
  | neg (left : AsmLeft)
  | mov (v : Value)
  | inc
  | dec
  | word (instr : Instr) (left : Option Value) (w : Word)
deriving DecidableEq, Repr

end Sys2Proof
end

