-- ==== Sys2Proof/WellFormed.lean ====
section
/-! DEFINITION. When an assembler line is well formed (spec/30_encoding.md R50). Every `Instr` is well formed by
construction; which control words are legal (R47) is `legal` in Decode.lean. -/

namespace Sys2Proof

namespace Instr

/-- The left operand's source; `none` for ZERO, which reads none (R45). -/
def left? : Instr → Option Left
  | .mulw x | .divw x | .clz x | .set x | .cvtb x
  | .cvtu8 x | .cvtu16 x | .cvtu32 x | .cvtu64 x
  | .cvts8 x | .cvts16 x | .cvts32 x | .cvts64 x
  | .cvtf32 x | .cvtf64 x
  | .add x | .sub x | .mul x | .div x | .mod x
  | .shl x | .shr x | .and x | .or x | .xor x | .not x
  | .cmp x | .eq x | .ne x | .lt x | .le x | .gt x | .ge x
  | .trunc8 x | .trunc16 x | .trunc32 x | .trunc64 x
  | .fcvt32 x | .fcvt64 x => some x
  | .zero => none

/-- The binary operations: those whose right operand R50 requires. -/
def isBinary : Instr → Bool
  | .mulw _ | .divw _ | .add _ | .sub _ | .mul _ | .div _ | .mod _
  | .shl _ | .shr _ | .and _ | .or _ | .xor _
  | .cmp _ | .eq _ | .ne _ | .lt _ | .le _ | .gt _ | .ge _ => true
  | .clz _ | .zero | .set _ | .cvtb _
  | .cvtu8 _ | .cvtu16 _ | .cvtu32 _ | .cvtu64 _
  | .cvts8 _ | .cvts16 _ | .cvts32 _ | .cvts64 _
  | .cvtf32 _ | .cvtf64 _ | .not _
  | .trunc8 _ | .trunc16 _ | .trunc32 _ | .trunc64 _
  | .fcvt32 _ | .fcvt64 _ => false

end Instr

namespace AsmLine

/-- A left literal stands exactly where the left operand is port `A` (R50). -/
def leftOk (l : AsmLine) : Bool := l.left.isSome == (l.instr.left? == some .portA)

/-- A right literal is required on the binary operations and forbidden on the others (R50). -/
def rightOk (l : AsmLine) : Bool := l.right.isSome == l.instr.isBinary

/-- The line is one R50 admits. -/
def wellFormed (l : AsmLine) : Bool := l.leftOk && l.rightOk

end AsmLine

end Sys2Proof
end

