-- ==== Sys2Proof/Decode.lean ====
section
/-! DEFINITION. The control word: its fields, which words are legal, the decoder, and after it the encoder
(spec/30_encoding.md R41 to R43, R47, R48; spec/opcode_table.json). Both are written from the spec's tables. -/

namespace Sys2Proof

/-! Fields of the control word (R41). -/

/-- `op` = `CW[7:0]`. -/
def cwOp (cw : ControlWord) : BitVec 8 := cw.extractLsb' 0 8

/-- `w` = `CW[9:8]`. -/
def cwWidth (cw : ControlWord) : BitVec 2 := cw.extractLsb' 8 2

/-- `acc` = `CW[10]`. -/
def cwAcc (cw : ControlWord) : Bool := cw.getLsbD 10

/-- `rsv` = `CW[15:11]`. -/
def cwRsv (cw : ControlWord) : BitVec 5 := cw.extractLsb' 11 5

/-- `acc` selects the left operand (R45). -/
def leftOfAcc (acc : Bool) : Left := if acc then .regR else .portA

/-- The `op` values of the opcode map (R42). -/
def opValues : List (BitVec 8) :=
  [0x01, 0x02, 0x03] ++
  [0x10, 0x11, 0x12, 0x13, 0x14, 0x15, 0x16] ++
  [0x20, 0x21, 0x22, 0x23, 0x24] ++
  [0x30, 0x31, 0x32, 0x33, 0x34, 0x35] ++
  [0x40, 0x41, 0x42, 0x43, 0x44, 0x45, 0x46] ++
  [0x50, 0x51, 0x52]

/-- The `op` values that use the width code: CVTU, CVTS, TRUNC (R43). -/
def widthOps : List (BitVec 8) := [0x13, 0x14, 0x50]

/-- A control word is legal when none of R47's conditions (a) to (d) holds. -/
def legal (cw : ControlWord) : Bool :=
  opValues.contains (cwOp cw) &&
  cwRsv cw == 0 &&
  (cwWidth cw == 0 || widthOps.contains (cwOp cw)) &&
  !(cwAcc cw && cwOp cw == 0x10)

/-- One row of the opcode table: a control word belongs to it when `CW & mask = match` (R41). -/
structure OpRow where
  mnemonic : String
  pattern : BitVec 16
  mask : BitVec 16
  make : Left → Instr

/-- The row's test, `CW & mask == match` (R41). -/
def OpRow.hits (row : OpRow) (cw : ControlWord) : Bool := cw &&& row.mask == row.pattern

/-- The opcode table (R42, R43): `match` is `op` with the width code in bits 9 to 8; `mask` leaves out `acc`, but
for ZERO, which has no `acc` form. -/
def opTable : List OpRow :=
  [⟨"MULW", 0x0001, 0xFBFF, .mulw⟩,
   ⟨"DIVW", 0x0002, 0xFBFF, .divw⟩,
   ⟨"CLZ", 0x0003, 0xFBFF, .clz⟩] ++
  [⟨"ZERO", 0x0010, 0xFFFF, fun _ => .zero⟩,
   ⟨"SET", 0x0011, 0xFBFF, .set⟩,
   ⟨"CVTB", 0x0012, 0xFBFF, .cvtb⟩,
   ⟨"CVTU.8", 0x0013, 0xFBFF, .cvtu8⟩,
   ⟨"CVTU.16", 0x0113, 0xFBFF, .cvtu16⟩,
   ⟨"CVTU.32", 0x0213, 0xFBFF, .cvtu32⟩,
   ⟨"CVTU.64", 0x0313, 0xFBFF, .cvtu64⟩,
   ⟨"CVTS.8", 0x0014, 0xFBFF, .cvts8⟩,
   ⟨"CVTS.16", 0x0114, 0xFBFF, .cvts16⟩,
   ⟨"CVTS.32", 0x0214, 0xFBFF, .cvts32⟩,
   ⟨"CVTS.64", 0x0314, 0xFBFF, .cvts64⟩,
   ⟨"CVTF32", 0x0015, 0xFBFF, .cvtf32⟩,
   ⟨"CVTF64", 0x0016, 0xFBFF, .cvtf64⟩] ++
  [⟨"ADD", 0x0020, 0xFBFF, .add⟩,
   ⟨"SUB", 0x0021, 0xFBFF, .sub⟩,
   ⟨"MUL", 0x0022, 0xFBFF, .mul⟩,
   ⟨"DIV", 0x0023, 0xFBFF, .div⟩,
   ⟨"MOD", 0x0024, 0xFBFF, .mod⟩] ++
  [⟨"SHL", 0x0030, 0xFBFF, .shl⟩,
   ⟨"SHR", 0x0031, 0xFBFF, .shr⟩,
   ⟨"AND", 0x0032, 0xFBFF, .and⟩,
   ⟨"OR", 0x0033, 0xFBFF, .or⟩,
   ⟨"XOR", 0x0034, 0xFBFF, .xor⟩,
   ⟨"NOT", 0x0035, 0xFBFF, .not⟩] ++
  [⟨"CMP", 0x0040, 0xFBFF, .cmp⟩,
   ⟨"EQ", 0x0041, 0xFBFF, .eq⟩,
   ⟨"NE", 0x0042, 0xFBFF, .ne⟩,
   ⟨"LT", 0x0043, 0xFBFF, .lt⟩,
   ⟨"LE", 0x0044, 0xFBFF, .le⟩,
   ⟨"GT", 0x0045, 0xFBFF, .gt⟩,
   ⟨"GE", 0x0046, 0xFBFF, .ge⟩] ++
  [⟨"TRUNC.8", 0x0050, 0xFBFF, .trunc8⟩,
   ⟨"TRUNC.16", 0x0150, 0xFBFF, .trunc16⟩,
   ⟨"TRUNC.32", 0x0250, 0xFBFF, .trunc32⟩,
   ⟨"TRUNC.64", 0x0350, 0xFBFF, .trunc64⟩,
   ⟨"FCVT32", 0x0051, 0xFBFF, .fcvt32⟩,
   ⟨"FCVT64", 0x0052, 0xFBFF, .fcvt64⟩]

/-- The decoder: the row the word belongs to, with the left operand `acc` selects; `none` is an illegal control
word (R47). It reads the word alone, in every state the same way (R48). -/
def decode (cw : ControlWord) : Option Instr :=
  (opTable.find? (·.hits cw)).map (·.make (leftOfAcc (cwAcc cw)))

/-- What the decoder reads from the opcode table's bits: the one word of a command, bits at and above `nbits`
zero. No command word is longer than 16 bits (R48). -/
def decodeTableWord (nbits w : Nat) : Option Instr :=
  if nbits ≤ 16 then decode (BitVec.ofNat 16 (w % 2 ^ nbits)) else none

/-! The encoder, from the fields of R41 and the numbers of R42 and R43. -/

namespace Instr

/-- The operation code (R42). -/
def op : Instr → BitVec 8
  | .mulw _ => 0x01
  | .divw _ => 0x02
  | .clz _ => 0x03
  | .zero => 0x10
  | .set _ => 0x11
  | .cvtb _ => 0x12
  | .cvtu8 _ | .cvtu16 _ | .cvtu32 _ | .cvtu64 _ => 0x13
  | .cvts8 _ | .cvts16 _ | .cvts32 _ | .cvts64 _ => 0x14
  | .cvtf32 _ => 0x15
  | .cvtf64 _ => 0x16
  | .add _ => 0x20
  | .sub _ => 0x21
  | .mul _ => 0x22
  | .div _ => 0x23
  | .mod _ => 0x24
  | .shl _ => 0x30
  | .shr _ => 0x31
  | .and _ => 0x32
  | .or _ => 0x33
  | .xor _ => 0x34
  | .not _ => 0x35
  | .cmp _ => 0x40
  | .eq _ => 0x41
  | .ne _ => 0x42
  | .lt _ => 0x43
  | .le _ => 0x44
  | .gt _ => 0x45
  | .ge _ => 0x46
  | .trunc8 _ | .trunc16 _ | .trunc32 _ | .trunc64 _ => 0x50
  | .fcvt32 _ => 0x51
  | .fcvt64 _ => 0x52

/-- The width code (R43); 00 for an operation without a width (R41). -/
def widthCode : Instr → BitVec 2
  | .cvtu8 _ | .cvts8 _ | .trunc8 _ => 0
  | .cvtu16 _ | .cvts16 _ | .trunc16 _ => 1
  | .cvtu32 _ | .cvts32 _ | .trunc32 _ => 2
  | .cvtu64 _ | .cvts64 _ | .trunc64 _ => 3
  | .mulw _ | .divw _ | .clz _ | .zero | .set _ | .cvtb _ | .cvtf32 _ | .cvtf64 _
  | .add _ | .sub _ | .mul _ | .div _ | .mod _
  | .shl _ | .shr _ | .and _ | .or _ | .xor _ | .not _
  | .cmp _ | .eq _ | .ne _ | .lt _ | .le _ | .gt _ | .ge _
  | .fcvt32 _ | .fcvt64 _ => 0

/-- The `acc` bit: 1 where the left operand is `R` (R45). -/
def acc (i : Instr) : Bool := i.left? == some .regR

end Instr

/-- The control word `rsv : acc : w : op` of an instruction, `rsv` = 00000 (R41). -/
def encode (i : Instr) : ControlWord :=
  (0 : BitVec 5) ++ (BitVec.ofBool i.acc ++ (i.widthCode ++ i.op))

/-- A command as one 272-bit string, `CW` above `B` above `A` (R40). -/
def Command.bits (c : Command) : BitVec 272 := c.cw ++ (c.b.bits ++ c.a.bits)

/-- The Value in 128 bits of a port, `hi` above `lo` (R18). -/
def valueOfBits (v : BitVec 128) : Value := ⟨v.extractLsb' 0 64, v.extractLsb' 64 64⟩

/-- The command written as a 272-bit string (R40). -/
def Command.ofBits (v : BitVec 272) : Command :=
  ⟨v.extractLsb' 256 16, valueOfBits (v.extractLsb' 0 128), valueOfBits (v.extractLsb' 128 128)⟩

end Sys2Proof
end

