-- ==== Sys2Proof/Machine/State.lean ====
section
/-! DEFINITION. The state of U128 CORE as plain data: the register `R`, the status fields `FAULT` and `CAUSE`
(spec/10_state.md R11, R13, R24), the ports (R18, R19), and what the host will drive on the input ports. -/

namespace Sys2Proof.Machine

/-- The legal values of `CAUSE`, 0 to 6 (60_exceptions.md R149); codes 7 to 15 never occur. -/
inductive Cause where
  | none
  | illegalCmd
  | divZero
  | divwOverflow
  | shiftRange
  | fpNonfinite
  | clzZero
deriving DecidableEq, Repr

/-- The input ports (10_state.md R18), as the host drives them during one step. -/
structure PortIn where
  rst : Bool
  cmdValid : Bool
  cw : ControlWord
  a : Value
  b : Value
deriving DecidableEq, Repr

/-- Input ports on which the host presents nothing. DESIGN CHOICE (log 5): the operand and control-word ports are 0. -/
def PortIn.idle : PortIn := ⟨false, false, 0, ⟨0, 0⟩, ⟨0, 0⟩⟩

structure State where
  /-- `R`, the one Value register (R11). -/
  r : Value
  /-- `FAULT`: a command has faulted since the last reset (R13). -/
  fault : Bool
  /-- `CAUSE`: the cause of the first fault since the last reset (R13). -/
  cause : Cause
  /-- The output port `done`: the last step ended a command (R19; DEDUCED, log 4). -/
  done : Bool
  /-- The input ports in this step (R18). -/
  inp : PortIn
  /-- The model's own (log 2): what the host drives on the input ports in the steps after this one, in order. -/
  host : List PortIn
deriving DecidableEq, Repr

/-- The output ports (R19), each at the width the port has. -/
structure PortOut where
  cmdReady : Bool
  done : Bool
  r : BitVec 128
  fault : Bool
  cause : BitVec 4
deriving DecidableEq, Repr

/-- Why the machine could stop with a fault: for no reason. Every fault of the spec is recorded in `FAULT` and
`CAUSE` and leaves a next state (60_exceptions.md R160), so nothing raises a value of this type, and that is safe:
no behaviour of the unit is cut off (log 6). -/
inductive Fault where
deriving DecidableEq, Repr

/-- Why the model could refuse. -/
inductive Refusal where
  /-- Raised by no arm of `exec`: every instruction has its meaning. Safe: a refusal proves nothing. -/
  | notModelled (mnemonic : String)
deriving DecidableEq, Repr

/-- The state after reset (70_reset_and_hazards.md R171): `R` = 0, `FAULT` = 0, `CAUSE` = 0 (NONE). The ports are the
host's: it presents nothing and `done` is 0 (DESIGN CHOICE and DEDUCED, logs 4 and 5). -/
def State.reset : State :=
  { r := ⟨0, 0⟩, fault := false, cause := .none, done := false, inp := .idle, host := [] }

end Sys2Proof.Machine
end

