-- ==== Sys2Proof/Machine/Ops.lean ====
section
/-! DEFINITION. The named operations over the state that every command shares: completing, raising a fault, reset,
holding, the handshake, the ports; and the word shifts (spec/30_encoding.md R49, spec/60_exceptions.md R160,
spec/10_state.md R19, R20, spec/70_reset_and_hazards.md R170, R176). -/

namespace Sys2Proof.Machine

open Host (Outcome)

/-! Ending a command. -/

/-- A command completes: `R <- v`, both words at once; `FAULT` and `CAUSE` stay (R49, R159); `done` pulses (R19). -/
def State.complete (s : State) (v : Value) : State := { s with r := v, done := true }

/-- `raise Fault(c)` (R160): `FAULT <- 1`, `CAUSE <- c`, `R` unchanged, `done` pulses. There is no return from a
fault but reset (R162). -/
def State.raise (s : State) (c : Cause) : State := { s with fault := true, cause := c, done := true }

/-- The end of the template of R49: what `check` and `compute` gave is written to `R` or raised as a fault. -/
def State.finish (s : State) (result : Except Cause Value) : Outcome State Fault Refusal :=
  match result with
  | .ok v => .next (s.complete v)
  | .error c => .next (s.raise c)

/-- A step in which no command ends: `R`, `FAULT` and `CAUSE` are held (R161, R169) and `done` is 0. -/
def State.hold (s : State) : State := { s with done := false }

/-- Reset (R170, R171): the way out of the faulted state; `done` does not pulse. -/
def State.applyReset (s : State) : State :=
  { s with r := ⟨0, 0⟩, fault := false, cause := .none, done := false }

/-! The ports. -/

/-- `cmd_ready`: `FAULT` = 0 (R19) and `rst` = 0 (R170). Busy is timing and has no place at one step per command
(R21). -/
def State.cmdReady (s : State) : Bool := !s.fault && !s.inp.rst

/-- The control word of the command accepted in this step: `cmd_valid` = 1 and `cmd_ready` = 1 (R20). A command
presented while `cmd_ready` = 0 is neither accepted nor queued. -/
def State.accepted (s : State) : Option ControlWord :=
  if s.inp.cmdValid && s.cmdReady then some s.inp.cw else none

/-- The next values on the input ports; when the host has no more to drive it presents nothing (log 2). -/
def State.advance (s : State) : State :=
  match s.host with
  | [] => { s with inp := .idle }
  | p :: ps => { s with inp := p, host := ps }

/-- The ports move on after an outcome that has a next state. -/
def advanceOutcome (o : Outcome State Fault Refusal) : Outcome State Fault Refusal :=
  match o with
  | .next t => .next t.advance
  | .fault e => .fault e
  | .refused e => .refused e

/-- The code of a cause on the port `cause` (R149). -/
def Cause.code : Cause → BitVec 4
  | .none => 0
  | .illegalCmd => 1
  | .divZero => 2
  | .divwOverflow => 3
  | .shiftRange => 4
  | .fpNonfinite => 5
  | .clzZero => 6

/-- The output ports (R19). Reading them changes nothing (20_memory.md R33). -/
def State.outputs (s : State) : PortOut :=
  ⟨s.cmdReady, s.done, s.r.bits, s.fault, s.cause.code⟩

/-- A word on the command port in this step: `rst` = 0, `cmd_valid` = 1, the operand ports as they are. -/
def State.present (s : State) (cw : ControlWord) : State :=
  { s with inp := { s.inp with rst := false, cmdValid := true, cw := cw } }

/-! Word shifts, defined on amounts 0 to 63 only (00_scope.md R8, R176): the amount's type has no other value. -/

/-- `w << n`, modulo 2^64. -/
def wordShl (w : Word) (n : Fin 64) : Word := w <<< n.val

/-- `w >> n`, zeros entering at the top. -/
def wordShr (w : Word) (n : Fin 64) : Word := w >>> n.val

end Sys2Proof.Machine
end

