-- ==== Sys2Proof/Machine/Operands.lean ====
section
/-! DEFINITION. Every operand form: the left operand `X`, the right operand `B`, the narrow sources and the shift
amount (spec/30_encoding.md R44, R45, spec/41_construction.md R77 to R79, spec/43_shift_bitwise.md R105). -/

namespace Sys2Proof.Machine

/-- The left operand `X` (R45): port `A`, or the old `R` when `acc` = 1. -/
def State.left (s : State) : Left → Value
  | .portA => s.inp.a
  | .regR => s.r

/-- The right operand: always port `B` (R45). -/
def State.right (s : State) : Value := s.inp.b

/-- A word as a Value, `hi` = 0 (R46, R78). -/
def valueOfWord (w : Word) : Value := ⟨w, 0⟩

/-- `zext_64(v[n-1:0])` (R8, R78). -/
def zextLow (n : Nat) (v : Word) : Word := (v.setWidth n).setWidth 64

/-- `sext_64(v[n-1:0])` (R8, R79). -/
def sextLow (n : Nat) (v : Word) : Word := (v.setWidth n).signExtend 64

/-- The sign bit `v[n-1]` replicated across a word (R79). -/
def signFill (n : Nat) (v : Word) : Word := if v.getLsbD (n - 1) then BitVec.allOnes 64 else 0

/-- The amount of SHL and SHR: the whole of `B`, unsigned, not masked; 128 or more is SHIFT_RANGE (R105). -/
def shiftAmount (b : Value) : Except Cause (Fin 128) :=
  if h : b.toNat < 128 then .ok ⟨b.toNat, h⟩ else .error .shiftRange

end Sys2Proof.Machine
end

