-- ==== Sys2Proof/Machine/Flags.lean ====
section
/-! DEFINITION. The unit has no flags (spec/10_state.md R15). Here is what other machines keep as flags: the carry
and borrow wires inside one step (spec/42_arithmetic.md R91, R93), the two comparison functions
(spec/44_ordering.md R120, R121), and the Values a comparison writes to `R` (R122, R123). -/

namespace Sys2Proof.Machine

/-- The carry into `hi`: the new `lo` is strictly less than the original left-hand `lo` (R91, R175). -/
def carryOf (newLo oldLo : Word) : Word := if newLo < oldLo then 1 else 0

/-- The borrow from `hi`: the new `lo` is greater than the original left-hand `lo` (R93, R175). -/
def borrowOf (newLo oldLo : Word) : Word := if newLo > oldLo then 1 else 0

/-- "Equality: both words equal" (R120). -/
def eq128 (x y : Value) : Bool := x.lo == y.lo && x.hi == y.hi

/-- "Three-way order: compare `hi` first; if equal, compare `lo`", words unsigned (R121). -/
def cmp3 (x y : Value) : Ordering :=
  if x.hi < y.hi then .lt
  else if x.hi > y.hi then .gt
  else if x.lo < y.lo then .lt
  else if x.lo > y.lo then .gt
  else .eq

/-- The boolean as a Value, false 0 and true 1 (R77, R123). -/
def boolValue (b : Bool) : Value := if b then ⟨1, 0⟩ else ⟨0, 0⟩

/-- The three-way result −1, 0, +1 as CMP writes it (R122). -/
def orderValue : Ordering → Value
  | .eq => ⟨0, 0⟩
  | .gt => ⟨1, 0⟩
  | .lt => ⟨BitVec.allOnes 64, BitVec.allOnes 64⟩

end Sys2Proof.Machine
end

