-- ==== Sys2Proof/Machine/Primitives.lean ====
section
/-! DEFINITION. The hardware primitives: the widening multiplier, the widening divider, the leading-zero counter, the
bit-reinterpretation unit, and the commands MULW, DIVW, CLZ (spec/40_primitives.md R60 to R69). -/

namespace Sys2Proof.Machine

open Host (Outcome)

/-- The widening multiply: the exact 128-bit product as (low word, high word) (R60). -/
def mulw64 (x y : Word) : Word × Word :=
  (BitVec.ofNat 64 (x.toNat * y.toNat), BitVec.ofNat 64 (x.toNat * y.toNat / 2 ^ 64))

/-- The widening divide: quotient and remainder of `nLo + nHi·2^64` by `d` (R62). Outside its precondition it has no
value and the caller's fault is raised: DIV_ZERO first, then DIVW_OVERFLOW (R63, R158). -/
def divw (nHi nLo d : Word) : Except Cause (Word × Word) :=
  if d = 0 then .error .divZero
  else if nHi ≥ d then .error .divwOverflow
  else
    let n := nLo.toNat + nHi.toNat * 2 ^ 64
    .ok (BitVec.ofNat 64 (n / d.toNat), BitVec.ofNat 64 (n % d.toNat))

/-- The leading-zero count of a nonzero word, `63 − floor(log2 x)`, in 0 to 63 (R64). Zero has no count: CLZ_ZERO
(R65). -/
def clz64 (x : Word) : Except Cause (Fin 64) :=
  if x = 0 then .error .clzZero else .ok ⟨63 - x.toNat.log2, by omega⟩

/-! Bit reinterpretation (R66): the field split and the field join; no command. -/

/-- The fields of a binary32 pattern: sign 31, exponent 30:23, mantissa 22:0 (R67). -/
def fsplit32 (u : BitVec 32) : FpFields :=
  ⟨u.getLsbD 31, (u.extractLsb' 23 8).toNat, (u.extractLsb' 0 23).setWidth 64⟩

/-- The fields of a binary64 pattern: sign 63, exponent 62:52, mantissa 51:0 (R68). -/
def fsplit64 (u : BitVec 64) : FpFields :=
  ⟨u.getLsbD 63, (u.extractLsb' 52 11).toNat, (u.extractLsb' 0 52).setWidth 64⟩

/-- `{sign, exp[7:0], man[22:0]}` (R69). -/
def fjoin32 (f : FpFields) : BitVec 32 :=
  BitVec.ofBool f.sign ++ (BitVec.ofNat 8 f.exp ++ f.man.setWidth 23)

/-- `{sign, exp[10:0], man[51:0]}` (R69). -/
def fjoin64 (f : FpFields) : BitVec 64 :=
  BitVec.ofBool f.sign ++ (BitVec.ofNat 11 f.exp ++ f.man.setWidth 52)

/-! The commands. -/

/-- MULW (R61): `X.lo · B.lo`, low word in `lo`, high word in `hi`. -/
def execMulw (x : Left) (s : State) : Outcome State Fault Refusal :=
  let p := mulw64 (s.left x).lo s.right.lo
  s.finish (.ok ⟨p.1, p.2⟩)

/-- DIVW (R63): the dividend is `X`, the divisor `B.lo`; quotient to `lo`, remainder to `hi`. -/
def execDivw (x : Left) (s : State) : Outcome State Fault Refusal :=
  s.finish ((divw (s.left x).hi (s.left x).lo s.right.lo).map fun qr => ⟨qr.1, qr.2⟩)

/-- CLZ (R65): the count of `X.lo`. -/
def execClz (x : Left) (s : State) : Outcome State Fault Refusal :=
  s.finish ((clz64 (s.left x).lo).map fun n => valueOfWord (BitVec.ofNat 64 n.val))

end Sys2Proof.Machine
end

