-- ==== Sys2Proof/Machine/Shift.lean ====
section
/-! DEFINITION. The left and right 128-bit barrel shifters, word-wise bitwise logic, and the commands SHL, SHR, AND,
OR, XOR, NOT (spec/43_shift_bitwise.md R105 to R113). -/

namespace Sys2Proof.Machine

open Host (Outcome)

/-- The left shifter (R106): 0 is its own case, 1 to 63 move bits between the words, 64 to 127 move `lo` into `hi`.
No word is ever shifted by 64 (R176). -/
def shl128 (x : Value) (s : Fin 128) : Value :=
  if h0 : s.val = 0 then x
  else if h : s.val ≤ 63 then
    ⟨wordShl x.lo ⟨s.val, by omega⟩, wordShl x.hi ⟨s.val, by omega⟩ ||| wordShr x.lo ⟨64 - s.val, by omega⟩⟩
  else ⟨0, wordShl x.lo ⟨s.val - 64, by omega⟩⟩

/-- The right shifter (R108), logical: zeros enter at bit 127. -/
def shr128 (x : Value) (s : Fin 128) : Value :=
  if h0 : s.val = 0 then x
  else if h : s.val ≤ 63 then
    ⟨wordShr x.lo ⟨s.val, by omega⟩ ||| wordShl x.hi ⟨64 - s.val, by omega⟩, wordShr x.hi ⟨s.val, by omega⟩⟩
  else ⟨wordShr x.hi ⟨s.val - 64, by omega⟩, 0⟩

/-- Word-wise and (R110). -/
def and128 (x y : Value) : Value := ⟨x.lo &&& y.lo, x.hi &&& y.hi⟩

/-- Word-wise or (R111). -/
def or128 (x y : Value) : Value := ⟨x.lo ||| y.lo, x.hi ||| y.hi⟩

/-- Word-wise exclusive or (R112). -/
def xor128 (x y : Value) : Value := ⟨x.lo ^^^ y.lo, x.hi ^^^ y.hi⟩

/-- Both words inverted (R113). -/
def not128 (x : Value) : Value := ⟨~~~x.lo, ~~~x.hi⟩

/-- SHL (R107): SHIFT_RANGE when `B ≥ 128`. -/
def execShl (x : Left) (s : State) : Outcome State Fault Refusal :=
  s.finish ((shiftAmount s.right).map (shl128 (s.left x)))

/-- SHR (R109): SHIFT_RANGE when `B ≥ 128`. -/
def execShr (x : Left) (s : State) : Outcome State Fault Refusal :=
  s.finish ((shiftAmount s.right).map (shr128 (s.left x)))

/-- AND (R110). -/
def execAnd (x : Left) (s : State) : Outcome State Fault Refusal :=
  s.finish (.ok (and128 (s.left x) s.right))

/-- OR (R111). -/
def execOr (x : Left) (s : State) : Outcome State Fault Refusal :=
  s.finish (.ok (or128 (s.left x) s.right))

/-- XOR (R112). -/
def execXor (x : Left) (s : State) : Outcome State Fault Refusal :=
  s.finish (.ok (xor128 (s.left x) s.right))

/-- NOT (R113). -/
def execNot (x : Left) (s : State) : Outcome State Fault Refusal :=
  s.finish (.ok (not128 (s.left x)))

end Sys2Proof.Machine
end

