-- ==== Sys2Proof/Machine/Arithmetic.lean ====
section
/-! DEFINITION. The 128-bit adder and subtractor, the multiplier, the two division paths, and the commands ADD, SUB,
MUL, DIV, MOD (spec/42_arithmetic.md R90 to R103). Everything is modulo 2^128 and nothing reports it (R90). -/

namespace Sys2Proof.Machine

open Host (Outcome)

/-- Word-wise addition with the carry detected from the low words (R91). -/
def add128 (x y : Value) : Value :=
  let lo := x.lo + y.lo
  ⟨lo, x.hi + y.hi + carryOf lo x.lo⟩

/-- Word-wise subtraction with the borrow detected from the low words (R93). -/
def sub128 (x y : Value) : Value :=
  let lo := x.lo - y.lo
  ⟨lo, x.hi - y.hi - borrowOf lo x.lo⟩

/-- Schoolbook multiplication, the terms that survive truncation: one widening product and two narrowing ones
(R95, 90_conflicts.md C9). -/
def mul128 (x y : Value) : Value :=
  let p := mulw64 x.lo y.lo
  ⟨p.1, p.2 + x.lo * y.hi + x.hi * y.lo⟩

/-- The small-divisor path, `d.hi` = 0: two widening divides (R97). -/
def divmodSmall (a d : Value) : Except Cause (Value × Value) :=
  if d.lo = 0 then .error .divZero
  else do
    let (qHi, r1) ← divw 0 a.hi d.lo
    let (qLo, r) ← divw r1 a.lo d.lo
    .ok (⟨qLo, qHi⟩, ⟨r, 0⟩)

/-- The loop of the long division, run `n` times on the remaining dividend, the shifted divisor and the quotient
accumulator (R98). These are the transient values of 10_state.md R16. -/
def longLoop : Nat → (rem dvs : Value) → (q : Word) → Word × Value
  | 0, rem, _, q => (q, rem)
  | n + 1, rem, dvs, q =>
    let q2 := wordShl q 1
    let dvs2 := shr128 dvs 1
    if cmp3 rem dvs = .lt then longLoop n rem dvs2 q2
    else longLoop n (sub128 rem dvs) dvs2 (q2 ||| 1)

/-- The long-division path, `d.hi ≠ 0`: align the divisor by the difference of the leading-zero counts, then restore
bit by bit (R98). In the second branch `clz64 d.hi ≥ clz64 a.hi` (R99 b), so the difference is not truncated. -/
def divmodLong (a d : Value) : Except Cause (Value × Value) :=
  if cmp3 a d = .lt then .ok (⟨0, 0⟩, a)
  else do
    let cd ← clz64 d.hi
    let ca ← clz64 a.hi
    let shift : Fin 128 := ⟨cd.val - ca.val, by omega⟩
    let (q, rem) := longLoop (shift.val + 1) a (shl128 d shift) 0
    .ok (⟨q, 0⟩, rem)

/-- "Two cases, chosen by whether the divisor's high word is zero" (R100). -/
def divmod128 (a d : Value) : Except Cause (Value × Value) :=
  if d.hi = 0 then divmodSmall a d else divmodLong a d

/-- ADD (R92). -/
def execAdd (x : Left) (s : State) : Outcome State Fault Refusal :=
  s.finish (.ok (add128 (s.left x) s.right))

/-- SUB (R94): `X` is the minuend. -/
def execSub (x : Left) (s : State) : Outcome State Fault Refusal :=
  s.finish (.ok (sub128 (s.left x) s.right))

/-- MUL (R96). -/
def execMul (x : Left) (s : State) : Outcome State Fault Refusal :=
  s.finish (.ok (mul128 (s.left x) s.right))

/-- DIV (R101): the quotient; DIV_ZERO when `B` = 0 (R103). -/
def execDiv (x : Left) (s : State) : Outcome State Fault Refusal :=
  s.finish ((divmod128 (s.left x) s.right).map (·.1))

/-- MOD (R102): the remainder; DIV_ZERO when `B` = 0 (R103). -/
def execMod (x : Left) (s : State) : Outcome State Fault Refusal :=
  s.finish ((divmod128 (s.left x) s.right).map (·.2))

end Sys2Proof.Machine
end

