-- ==== Sys2Proof/Machine/Construction.lean ====
section
/-! DEFINITION. Storage and construction: ZERO, SET, CVTB, CVTU.w, CVTS.w, CVTF32, CVTF64, and the negation and the
floating-point construction they use (spec/41_construction.md R75 to R84). -/

namespace Sys2Proof.Machine

open Host (Outcome)

/-- Zero extension of the low `n` bits of `X.lo`, `hi` = 0 (R78). -/
def zextValue (n : Nat) (v : Value) : Value := ⟨zextLow n v.lo, 0⟩

/-- Sign extension of the low `n` bits of `X.lo` to 128 bits (R79). -/
def sextValue (n : Nat) (v : Value) : Value := ⟨sextLow n v.lo, signFill n v.lo⟩

/-- "Two's-complement negation: bitwise NOT then add 1" (R80). -/
def neg128 (x : Value) : Value := add128 (not128 x) ⟨1, 0⟩

/-- The magnitude's shift of R81: left when `e > MW`, right when `e < MW`, with the underflow test before the right
shifter (R177) and SHIFT_RANGE before the left one (R83). -/
def fpShift (F : FpFormat) (e : Int) (mag : Value) : Except Cause Value :=
  if e > F.mw.val then
    let s := (e - F.mw.val).toNat
    if h : s < 128 then .ok (shl128 mag ⟨s, h⟩) else .error .shiftRange
  else if e < F.mw.val then
    let s := (F.mw.val - e).toNat
    if h : s > F.mw.val then .ok ⟨0, 0⟩ else .ok (shr128 mag ⟨s, by have := F.mw.isLt; omega⟩)
  else .ok mag

/-- Construction from the fields of a floating-point pattern (R81): FP_NONFINITE first; the implicit one is always
inserted; the shift; the negation. -/
def fpToU128 (F : FpFormat) (f : FpFields) : Except Cause Value :=
  if f.exp = F.expMax then .error .fpNonfinite
  else do
    let mag ← fpShift F ((f.exp : Int) - F.bias) ⟨wordShl 1 F.mw ||| f.man, 0⟩
    .ok (if f.sign then neg128 mag else mag)

/-- ZERO (R75): the result depends on nothing. -/
def execZero (s : State) : Outcome State Fault Refusal := s.finish (.ok ⟨0, 0⟩)

/-- SET (R76). -/
def execSet (x : Left) (s : State) : Outcome State Fault Refusal := s.finish (.ok (s.left x))

/-- CVTB (R77): bit 0 of `X.lo`. -/
def execCvtb (x : Left) (s : State) : Outcome State Fault Refusal :=
  s.finish (.ok (boolValue ((s.left x).lo.getLsbD 0)))

/-- CVTU.8 (R78). -/
def execCvtu8 (x : Left) (s : State) : Outcome State Fault Refusal := s.finish (.ok (zextValue 8 (s.left x)))

/-- CVTU.16 (R78). -/
def execCvtu16 (x : Left) (s : State) : Outcome State Fault Refusal := s.finish (.ok (zextValue 16 (s.left x)))

/-- CVTU.32 (R78). -/
def execCvtu32 (x : Left) (s : State) : Outcome State Fault Refusal := s.finish (.ok (zextValue 32 (s.left x)))

/-- CVTU.64 (R78). -/
def execCvtu64 (x : Left) (s : State) : Outcome State Fault Refusal := s.finish (.ok (zextValue 64 (s.left x)))

/-- CVTS.8 (R79). -/
def execCvts8 (x : Left) (s : State) : Outcome State Fault Refusal := s.finish (.ok (sextValue 8 (s.left x)))

/-- CVTS.16 (R79). -/
def execCvts16 (x : Left) (s : State) : Outcome State Fault Refusal := s.finish (.ok (sextValue 16 (s.left x)))

/-- CVTS.32 (R79). -/
def execCvts32 (x : Left) (s : State) : Outcome State Fault Refusal := s.finish (.ok (sextValue 32 (s.left x)))

/-- CVTS.64 (R79). -/
def execCvts64 (x : Left) (s : State) : Outcome State Fault Refusal := s.finish (.ok (sextValue 64 (s.left x)))

/-- CVTF32 (R82): the pattern is `X.lo[31:0]`. -/
def execCvtf32 (x : Left) (s : State) : Outcome State Fault Refusal :=
  s.finish (fpToU128 binary32 (fsplit32 ((s.left x).lo.setWidth 32)))

/-- CVTF64 (R83): the pattern is `X.lo`. -/
def execCvtf64 (x : Left) (s : State) : Outcome State Fault Refusal :=
  s.finish (fpToU128 binary64 (fsplit64 (s.left x).lo))

end Sys2Proof.Machine
end

