-- ==== Sys2Proof/Machine/Rounding.lean ====
section
/-! DEFINITION. The floating-point arithmetic the conversion out uses (spec/45_conversion_out.md R131, R132): the
three operations `cvt_F`, `mul_F`, `add_F`, each rounded by FP_ROUND, and the value FP_ROUND has. -/

namespace Sys2Proof.Machine

/-- A floating-point number that the conversion out meets. Every one of them is a non-negative integer (a word, that
word times 2^64, the sum of two such) or +infinity (DEDUCED, log 8). -/
inductive FpNum where
  | finite (v : Nat)
  | infinity
deriving DecidableEq, Repr

/-- Round to nearest, ties to even (R131, D28, G2): up when the dropped part is above one half of the last kept place,
or is one half and the kept significand is odd. -/
def nearestEven : FpRound := fun kept dropped bits =>
  2 * dropped > 2 ^ bits || (2 * dropped == 2 ^ bits && kept % 2 == 1)

/-- The value of the parameter FP_ROUND that the spec fixes (R131, D28; log 7). -/
def fpRound : FpRound := nearestEven

/-- A representable number exceeds the largest finite number of a format: its biased exponent would be `EXP_MAX` or
more (R131, R67, R68; `exceeds_iff` in Laws/Float.lean). -/
def exceeds (F : FpFormat) (v : Nat) : Bool := F.expMax ≤ v.log2 + F.bias

/-- The number of low bits of `v` that the significand of `MW + 1` bits has no room for. -/
def dropBits (F : FpFormat) (v : Nat) : Nat := v.log2 + 1 - (F.mw.val + 1)

/-- The representable number that FP_ROUND picks for the exact result `v`; +infinity when it exceeds the largest
finite number (R131). A representable `v` is itself, whatever the rule. -/
def roundTo (rnd : FpRound) (F : FpFormat) (v : Nat) : FpNum :=
  let bits := dropBits F v
  let kept := v / 2 ^ bits
  let dropped := v % 2 ^ bits
  let sig := if dropped ≠ 0 ∧ rnd kept dropped bits then kept + 1 else kept
  if exceeds F (sig * 2 ^ bits) then .infinity else .finite (sig * 2 ^ bits)

/-- `cvt_F(u)` (R131). -/
def cvtF (rnd : FpRound) (F : FpFormat) (u : Word) : FpNum := roundTo rnd F u.toNat

/-- `mul_F(p, q)` (R131), for a nonzero `q` where `p` is infinite. -/
def mulF (rnd : FpRound) (F : FpFormat) : FpNum → FpNum → FpNum
  | .finite v, .finite w => roundTo rnd F (v * w)
  | .infinity, _ => .infinity
  | _, .infinity => .infinity

/-- `add_F(p, q)` (R131). -/
def addF (rnd : FpRound) (F : FpFormat) : FpNum → FpNum → FpNum
  | .finite v, .finite w => roundTo rnd F (v + w)
  | .infinity, _ => .infinity
  | _, .infinity => .infinity

/-- `u128_to_fp_F(x)`: `hi_as_float * 2^64 + lo_as_float` in three rounded steps (R132). -/
def u128ToFp (rnd : FpRound) (F : FpFormat) (x : Value) : FpNum :=
  let t1 := cvtF rnd F x.hi
  let t2 := mulF rnd F t1 (.finite (2 ^ 64))
  let t3 := cvtF rnd F x.lo
  addF rnd F t2 t3

/-- The fields of a number's pattern: sign 0; the biased exponent and the significand without its leading one; all
zeros for 0; `EXP_MAX` and no mantissa for +infinity (R67, R68, R132). -/
def fpFields (F : FpFormat) : FpNum → FpFields
  | .infinity => ⟨false, F.expMax, 0⟩
  | .finite v =>
    if v = 0 then ⟨false, 0, 0⟩
    else ⟨false, v.log2 + F.bias, BitVec.ofNat 64 (v * 2 ^ F.mw.val / 2 ^ v.log2 - 2 ^ F.mw.val)⟩

end Sys2Proof.Machine
end

