-- ==== Sys2Proof/Machine/ConversionOut.lean ====
section
/-! DEFINITION. Conversion out: TRUNC.w, FCVT32, FCVT64 (spec/45_conversion_out.md R130 to R135). -/

namespace Sys2Proof.Machine

open Host (Outcome)

/-- Narrowing to `n` bits: the low word's low bits, the bits of `R` above them zero (R130). -/
def truncValue (n : Nat) (v : Value) : Value := ⟨zextLow n v.lo, 0⟩

/-- The binary32 pattern of a Value under a rounding rule (R132, R69). -/
def u128ToBinary32 (rnd : FpRound) (x : Value) : BitVec 32 := fjoin32 (fpFields binary32 (u128ToFp rnd binary32 x))

/-- The binary64 pattern of a Value under a rounding rule (R132, R69). -/
def u128ToBinary64 (rnd : FpRound) (x : Value) : BitVec 64 := fjoin64 (fpFields binary64 (u128ToFp rnd binary64 x))

/-- TRUNC.8 (R130). -/
def execTrunc8 (x : Left) (s : State) : Outcome State Fault Refusal := s.finish (.ok (truncValue 8 (s.left x)))

/-- TRUNC.16 (R130). -/
def execTrunc16 (x : Left) (s : State) : Outcome State Fault Refusal := s.finish (.ok (truncValue 16 (s.left x)))

/-- TRUNC.32 (R130). -/
def execTrunc32 (x : Left) (s : State) : Outcome State Fault Refusal := s.finish (.ok (truncValue 32 (s.left x)))

/-- TRUNC.64 (R130). -/
def execTrunc64 (x : Left) (s : State) : Outcome State Fault Refusal := s.finish (.ok (truncValue 64 (s.left x)))

/-- FCVT32 (R133): the pattern in `R.lo[31:0]`, the rest 0. -/
def execFcvt32 (x : Left) (s : State) : Outcome State Fault Refusal :=
  s.finish (.ok ⟨(u128ToBinary32 fpRound (s.left x)).setWidth 64, 0⟩)

/-- FCVT64 (R134): the pattern in `R.lo`, `R.hi` = 0. -/
def execFcvt64 (x : Left) (s : State) : Outcome State Fault Refusal :=
  s.finish (.ok ⟨u128ToBinary64 fpRound (s.left x), 0⟩)

end Sys2Proof.Machine
end

