-- ==== Sys2Proof/Machine/Ordering.lean ====
section
/-! DEFINITION. The ordering commands CMP, EQ, NE, LT, LE, GT, GE (spec/44_ordering.md R122 to R128): the answer is a
Value written to `R`. -/

namespace Sys2Proof.Machine

open Host (Outcome)

/-- CMP (R122). -/
def execCmp (x : Left) (s : State) : Outcome State Fault Refusal :=
  s.finish (.ok (orderValue (cmp3 (s.left x) s.right)))

/-- EQ (R123). -/
def execEq (x : Left) (s : State) : Outcome State Fault Refusal :=
  s.finish (.ok (boolValue (eq128 (s.left x) s.right)))

/-- NE (R124). -/
def execNe (x : Left) (s : State) : Outcome State Fault Refusal :=
  s.finish (.ok (boolValue (!eq128 (s.left x) s.right)))

/-- LT (R125): `cmp3 < 0`. -/
def execLt (x : Left) (s : State) : Outcome State Fault Refusal :=
  s.finish (.ok (boolValue (cmp3 (s.left x) s.right).isLT))

/-- LE (R126): `cmp3 ≤ 0`. -/
def execLe (x : Left) (s : State) : Outcome State Fault Refusal :=
  s.finish (.ok (boolValue (cmp3 (s.left x) s.right).isLE))

/-- GT (R127): `cmp3 > 0`. -/
def execGt (x : Left) (s : State) : Outcome State Fault Refusal :=
  s.finish (.ok (boolValue (cmp3 (s.left x) s.right).isGT))

/-- GE (R128): `cmp3 ≥ 0`. -/
def execGe (x : Left) (s : State) : Outcome State Fault Refusal :=
  s.finish (.ok (boolValue (cmp3 (s.left x) s.right).isGE))

end Sys2Proof.Machine
end

