-- ==== Sys2Proof/Machine/Dispatch.lean ====
section
/-! DEFINITION. One arm per instruction: each calls its meaning (spec/30_encoding.md R42). -/

namespace Sys2Proof.Machine

def exec (i : Instr) (s : State) : Host.Outcome State Fault Refusal :=
  match i with
  | .mulw x => Sys2Proof.Machine.execMulw x s
  | .divw x => Sys2Proof.Machine.execDivw x s
  | .clz x => Sys2Proof.Machine.execClz x s
  | .zero => Sys2Proof.Machine.execZero s
  | .set x => Sys2Proof.Machine.execSet x s
  | .cvtb x => Sys2Proof.Machine.execCvtb x s
  | .cvtu8 x => Sys2Proof.Machine.execCvtu8 x s
  | .cvtu16 x => Sys2Proof.Machine.execCvtu16 x s
  | .cvtu32 x => Sys2Proof.Machine.execCvtu32 x s
  | .cvtu64 x => Sys2Proof.Machine.execCvtu64 x s
  | .cvts8 x => Sys2Proof.Machine.execCvts8 x s
  | .cvts16 x => Sys2Proof.Machine.execCvts16 x s
  | .cvts32 x => Sys2Proof.Machine.execCvts32 x s
  | .cvts64 x => Sys2Proof.Machine.execCvts64 x s
  | .cvtf32 x => Sys2Proof.Machine.execCvtf32 x s
  | .cvtf64 x => Sys2Proof.Machine.execCvtf64 x s
  | .add x => Sys2Proof.Machine.execAdd x s
  | .sub x => Sys2Proof.Machine.execSub x s
  | .mul x => Sys2Proof.Machine.execMul x s
  | .div x => Sys2Proof.Machine.execDiv x s
  | .mod x => Sys2Proof.Machine.execMod x s
  | .shl x => Sys2Proof.Machine.execShl x s
  | .shr x => Sys2Proof.Machine.execShr x s
  | .and x => Sys2Proof.Machine.execAnd x s
  | .or x => Sys2Proof.Machine.execOr x s
  | .xor x => Sys2Proof.Machine.execXor x s
  | .not x => Sys2Proof.Machine.execNot x s
  | .cmp x => Sys2Proof.Machine.execCmp x s
  | .eq x => Sys2Proof.Machine.execEq x s
  | .ne x => Sys2Proof.Machine.execNe x s
  | .lt x => Sys2Proof.Machine.execLt x s
  | .le x => Sys2Proof.Machine.execLe x s
  | .gt x => Sys2Proof.Machine.execGt x s
  | .ge x => Sys2Proof.Machine.execGe x s
  | .trunc8 x => Sys2Proof.Machine.execTrunc8 x s
  | .trunc16 x => Sys2Proof.Machine.execTrunc16 x s
  | .trunc32 x => Sys2Proof.Machine.execTrunc32 x s
  | .trunc64 x => Sys2Proof.Machine.execTrunc64 x s
  | .fcvt32 x => Sys2Proof.Machine.execFcvt32 x s
  | .fcvt64 x => Sys2Proof.Machine.execFcvt64 x s

end Sys2Proof.Machine
end

