-- ==== Sys2Proof/Machine/Step.lean ====
section
/-! DEFINITION. One step of the unit: reset, an accepted command, or nothing (spec/00_scope.md R7,
spec/10_state.md R20, spec/30_encoding.md R49, spec/70_reset_and_hazards.md R170). -/

namespace Sys2Proof.Machine

open Host (Outcome)

/-- One step. With `rst` = 1 the unit resets (R170). An accepted command is decoded and run; an illegal control word
raises ILLEGAL_CMD before any operand is looked at (R47, R150). With no command accepted the state is held (R20,
R161). In every case the host's next port values come after it. -/
def step (s : State) : Outcome State Fault Refusal :=
  if s.inp.rst then .next s.applyReset.advance
  else
    match s.accepted with
    | none => .next s.hold.advance
    | some cw =>
      match decode cw with
      | none => .next (s.raise .illegalCmd).advance
      | some i => advanceOutcome (exec i s)

/-- The state with a table word on the command port (log 3): the bits at and above `nbits` are 0, `rst` = 0,
`cmd_valid` = 1; the operand ports and everything else stay. The next step accepts it if `FAULT` = 0. -/
def State.withFetchWord (s : State) (nbits w : Nat) : State := s.present (BitVec.ofNat 16 (w % 2 ^ nbits))

end Sys2Proof.Machine
end

