-- ==== Sys2Proof/Machine/Program.lean ====
section
/-! DEFINITION. Programs as the host issues them: the assembler, the pseudo-instructions, and loading a list of
commands into what the host will drive (spec/30_encoding.md R50, R51, spec/10_state.md R14; log 3). -/

namespace Sys2Proof.Machine

/-- The command of an assembler line (R50): `A` is the left literal, 0 where there is none; `B` is the right literal,
0 where there is none; a line R50 does not admit has no command. -/
def assemble (l : AsmLine) : Option Command :=
  if l.wellFormed then some ⟨encode l.instr, l.left.getD ⟨0, 0⟩, l.right.getD ⟨0, 0⟩⟩ else none

/-- The literal of a left operand, where it has one (R50). -/
def asmLeftLiteral : AsmLeft → Option Value
  | .reg => none
  | .lit v => some v

/-- The kind of a left operand (R45, R50). -/
def asmLeftKind : AsmLeft → Left
  | .reg => .regR
  | .lit _ => .portA

/-- The expansion of a pseudo-instruction (R51). -/
def expand : Pseudo → List AsmLine
  | .min => [⟨.zero, none, none⟩]
  | .max => [⟨.zero, none, none⟩, ⟨.not .regR, none, none⟩]
  | .neg left => [⟨.not (asmLeftKind left), asmLeftLiteral left, none⟩, ⟨.add .regR, none, some ⟨1, 0⟩⟩]
  | .mov v => [⟨.set .portA, some v, none⟩]
  | .inc => [⟨.add .regR, none, some ⟨1, 0⟩⟩]
  | .dec => [⟨.sub .regR, none, some ⟨1, 0⟩⟩]
  | .word i left w => [⟨i, left, some (valueOfWord w)⟩]

/-- The input ports while the host presents a command (10_state.md R20). -/
def portOf (c : Command) : PortIn := ⟨false, true, c.cw, c.a, c.b⟩

/-- The host drives a list of port values, the first in this step. -/
def State.drive (s : State) : List PortIn → State
  | [] => { s with inp := .idle, host := [] }
  | p :: ps => { s with inp := p, host := ps }

/-- The host issues a list of commands one after the other (10_state.md R14, 20_memory.md R35). -/
def State.load (s : State) (cs : List Command) : State := s.drive (cs.map portOf)

/-- One command issued from a state, and the state after it. -/
def State.issue (s : State) (c : Command) : Host.Outcome State Fault Refusal := step (s.load [c])

end Sys2Proof.Machine
end

