-- ==== Sys2Proof/Machine/HostCodec.lean ====
section
/-! DEFINITION. The decimal text codec: a host procedure that drives the unit's MOD, DIV, MUL and ADD commands, not an
operation of the unit (spec/46_text_codec.md R140 to R145). Base 10 only (R143). Text that R142 gives no meaning to
answers `none`: TEXT_ERROR_POLICY is open (R144; log 16). -/

namespace Sys2Proof.Machine

/-- What the host reads on port `r` after one command from a state, the state itself being given up if the unit did
not go on. DESIGN CHOICE (log 19): on a faulted unit, which accepts no command (60_exceptions.md R161), the host does
not look at `fault` and goes on with the old `R`; R141 and R142 do not say what it does there. -/
def readAfter (s : State) (i : Instr) (a b : Value) : Value :=
  match s.issue ⟨encode i, a, b⟩ with
  | .next t => t.r
  | .fault _ => s.r
  | .refused _ => s.r

/-- The Value 10. -/
def ten : Value := valueOfWord 10

/-- A decimal digit's character, `'0' + d` (R141). -/
def digitChar (d : Nat) : Char := Char.ofNat (48 + d)

/-- The digit of a character `'0'` to `'9'` (R142). -/
def digitValue? (c : Char) : Option Nat :=
  if 48 ≤ c.toNat ∧ c.toNat ≤ 57 then some (c.toNat - 48) else none

/-- The digit loop of R141, most significant digit first, `acc` the digits found so far; at most `fuel` digits. -/
def encodeLoop (s : State) : (fuel : Nat) → Value → List Char → List Char
  | 0, _, acc => acc
  | fuel + 1, v, acc =>
    if v = ⟨0, 0⟩ then acc
    else
      let d := readAfter s (.mod .portA) v ten
      let q := readAfter s (.div .portA) v ten
      encodeLoop s fuel q (digitChar d.lo.toNat :: acc)

/-- Decimal encoding (R141). The longest output has 39 digits. -/
def encodeText (s : State) (v : Value) : List Char :=
  if v = ⟨0, 0⟩ then ['0'] else encodeLoop s 39 v []

/-- The digits of R142: `acc = acc·10 + digit` for each, modulo 2^128. DESIGN CHOICE (log 20): the host keeps `acc` and
presents it on port `A`, with `acc` = 0 in the control word, each command from the same state; R142 does not say whether
`acc` lives in `R` or with the host. -/
def decodeDigits (s : State) : List Char → Value → Option Value
  | [], acc => some acc
  | c :: cs, acc =>
    match digitValue? c with
    | none => none
    | some d =>
      let m := readAfter s (.mul .portA) acc ten
      decodeDigits s cs (readAfter s (.add .portA) m (valueOfWord (BitVec.ofNat 64 d)))

/-- Negation as the host issues it, NOT then ADD 1 (R142, R51). DESIGN CHOICE (log 20): the value between the two goes
through the host and port `A`, where R51 writes `ADD R, 1`. -/
def negText (s : State) (v : Value) : Value :=
  readAfter s (.add .portA) (readAfter s (.not .portA) v ⟨0, 0⟩) ⟨1, 0⟩

/-- The digits after the sign; there must be at least one. -/
def decodeUnsigned (s : State) (cs : List Char) : Option Value :=
  if cs = [] then none else decodeDigits s cs ⟨0, 0⟩

/-- Decimal decoding (R142): an optional sign, then digits. -/
def decodeText (s : State) : List Char → Option Value
  | '+' :: cs => decodeUnsigned s cs
  | '-' :: cs => (decodeUnsigned s cs).map (negText s)
  | cs => decodeUnsigned s cs

end Sys2Proof.Machine
end

