-- ==== Sys2Proof/Safety.lean ====
section
/-! DEFINITION. The terms the statements use: how a command ends, the invariant of the status register, what a safe
run is (spec/10_state.md R24, spec/60_exceptions.md R159 to R161), and what the nearest representable number is
(spec/93_implementation_defined.md G2). -/

namespace Sys2Proof.Machine

/-- The instruction completes: `R` is the given Value, `done` pulses, and everything else of the state, the status
fields and the ports among it, is as before (R159). -/
def Completes (i : Instr) (s : State) (v : Value) : Prop :=
  exec i s = .next { s with r := v, done := true }

/-- The instruction faults: `FAULT` and `CAUSE` are written, `done` pulses, and everything else of the state, `R` among
it, is as before (R159, R160). -/
def FaultsWith (i : Instr) (s : State) (c : Cause) : Prop :=
  exec i s = .next { s with fault := true, cause := c, done := true }

/-- The status register is in a reachable state: `CAUSE` = 0 when `FAULT` = 0, and 1 to 6 when `FAULT` = 1 (R24). -/
def State.StatusOk (s : State) : Prop :=
  (s.fault = false → s.cause.code = 0) ∧ (s.fault = true → 1 ≤ s.cause.code.toNat ∧ s.cause.code.toNat ≤ 6)

/-- A run of `k` steps is safe when the unit is not faulted after it: "no fault recorded" (R161). -/
def SafeRun (k : Nat) (s : State) : Prop := ∃ t, core.run k s = .next t ∧ State.fault t = false

/-! Rounding to nearest, ties to even, in the words of G2 and without the model's rounding function. -/

/-- `w` has a significand of at most `p` bits, the exponent unbounded. -/
def Representable (p w : Nat) : Prop := ∃ m k, m < 2 ^ p ∧ w = m * 2 ^ k

/-- The last of the `p` significand bits of `w` is 0. -/
def EvenSignificand (p w : Nat) : Prop := ∃ m k, 2 ^ (p - 1) ≤ m ∧ m < 2 ^ p ∧ m % 2 = 0 ∧ w = m * 2 ^ k

/-- The distance of two numbers. -/
def absDiff (v w : Nat) : Nat := (v - w) + (w - v)

/-- `w` is the representable number nearest to `v`; "on a tie, the one with an even last mantissa bit" (G2). -/
def NearestEven (p v w : Nat) : Prop :=
  Representable p w ∧
  (∀ u, Representable p u → absDiff v w ≤ absDiff v u) ∧
  (∀ u, Representable p u → u ≠ w → absDiff v u = absDiff v w → EvenSignificand p w)

end Sys2Proof.Machine
end

