-- ==== Sys2Proof/Certificates/Slice0/Obligations.lean ====
section
/-! DEFINITION. The statements for the provers, each about what a numbered rule of the spec says, with the terms they
share. `Completes` and `FaultsWith` (Safety.lean) are equations for the whole next state, so a statement that a
command completes or faults is its result, its completion and its frame at once. -/

namespace Sys2Proof.Claims

open Sys2Proof.Machine

/-- The left operand (R45): port `A` when `acc` = 0, the old `R` when `acc` = 1. -/
def X (s : State) : Left → Value
  | .portA => s.inp.a
  | .regR => s.r

/-- The right operand, port `B` (R45). -/
def B (s : State) : Value := s.inp.b

/-- The Value of an integer modulo 2^128. -/
def ofInt (z : Int) : Value := Value.ofNat (z % 2 ^ 128).toNat

/-- The Value of a predicate, 1 or 0. -/
def truth (p : Prop) [Decidable p] : Value := if p then ⟨1, 0⟩ else ⟨0, 0⟩

/-- The state after a step: `t`, with the host's next port values on the input ports. -/
def onward (t : State) : State := { t with inp := t.host.headD .idle, host := t.host.tail }

/-- The unit accepts a command in this step (R20). -/
def Accepts (s : State) : Prop := s.inp.rst = false ∧ s.inp.cmdValid = true ∧ s.fault = false

/-- The two control words of an operation with an `acc` form: `w`, and `w` + 0x0400 for `acc` = 1 (R41). -/
def HasWords (make : Left → Instr) (w : Nat) : Prop :=
  decode (BitVec.ofNat 16 w) = some (make .portA) ∧ decode (BitVec.ofNat 16 (w + 0x0400)) = some (make .regR)

/-- The `op` values of the opcode map (R42). -/
def ops : List Nat :=
  [0x01, 0x02, 0x03, 0x10, 0x11, 0x12, 0x13, 0x14, 0x15, 0x16, 0x20, 0x21, 0x22, 0x23, 0x24] ++
  [0x30, 0x31, 0x32, 0x33, 0x34, 0x35, 0x40, 0x41, 0x42, 0x43, 0x44, 0x45, 0x46, 0x50, 0x51, 0x52]

/-- R47 (a) to (d), on the number of the control word: its low byte is `op`, then `w`, `acc`, `rsv`. -/
def Illegal (cw : ControlWord) : Prop :=
  cw.toNat % 256 ∉ ops ∨
  cw.toNat / 2048 ≠ 0 ∨
  (cw.toNat / 256 % 4 ≠ 0 ∧ cw.toNat % 256 ∉ [0x13, 0x14, 0x50]) ∨
  (cw.toNat / 1024 % 2 = 1 ∧ cw.toNat % 256 = 0x10)

/-- The operand bits each operation reads (R42's column "operands read", R44), as numbers. -/
def reads (s : State) : Instr → List Nat
  | .zero => []
  | .mulw x => [(X s x).lo.toNat, (B s).lo.toNat]
  | .divw x => [(X s x).toNat, (B s).lo.toNat]
  | .clz x | .cvtu64 x | .cvts64 x | .cvtf64 x | .trunc64 x => [(X s x).lo.toNat]
  | .set x | .not x | .fcvt32 x | .fcvt64 x => [(X s x).toNat]
  | .cvtb x => [(X s x).lo.toNat % 2]
  | .cvtu8 x | .cvts8 x | .trunc8 x => [(X s x).lo.toNat % 2 ^ 8]
  | .cvtu16 x | .cvts16 x | .trunc16 x => [(X s x).lo.toNat % 2 ^ 16]
  | .cvtu32 x | .cvts32 x | .trunc32 x | .cvtf32 x => [(X s x).lo.toNat % 2 ^ 32]
  | .add x | .sub x | .mul x | .div x | .mod x | .shl x | .shr x | .and x | .or x | .xor x
  | .cmp x | .eq x | .ne x | .lt x | .le x | .gt x | .ge x => [(X s x).toNat, (B s).toNat]

/-- The causes each operation can raise besides ILLEGAL_CMD (R149). -/
def causes : Instr → List Cause
  | .div _ | .mod _ => [.divZero]
  | .divw _ => [.divZero, .divwOverflow]
  | .clz _ => [.clzZero]
  | .shl _ | .shr _ => [.shiftRange]
  | .cvtf32 _ => [.fpNonfinite]
  | .cvtf64 _ => [.fpNonfinite, .shiftRange]
  | .mulw _ | .zero | .set _ | .cvtb _
  | .cvtu8 _ | .cvtu16 _ | .cvtu32 _ | .cvtu64 _ | .cvts8 _ | .cvts16 _ | .cvts32 _ | .cvts64 _
  | .add _ | .sub _ | .mul _ | .and _ | .or _ | .xor _ | .not _
  | .cmp _ | .eq _ | .ne _ | .lt _ | .le _ | .gt _ | .ge _
  | .trunc8 _ | .trunc16 _ | .trunc32 _ | .trunc64 _ | .fcvt32 _ | .fcvt64 _ => []

/-- The number a binary32 pattern stands for, rounded toward zero: `1.man · 2^(exp − 127)` with the implicit one always
inserted, negative under the sign (R81, R82). -/
def trunc32 (u : Nat) : Int :=
  let mag : Nat := (2 ^ 23 + u % 2 ^ 23) * 2 ^ (u / 2 ^ 23 % 2 ^ 8) / 2 ^ 150
  if u / 2 ^ 31 % 2 = 1 then -(mag : Int) else mag

/-- The same for a binary64 pattern (R81, R83). -/
def trunc64 (u : Nat) : Int :=
  let mag : Nat := (2 ^ 52 + u % 2 ^ 52) * 2 ^ (u / 2 ^ 52 % 2 ^ 11) / 2 ^ 1075
  if u / 2 ^ 63 % 2 = 1 then -(mag : Int) else mag

/-- `p` is the binary32 pattern of the number `t`: 0; +infinity from 2^128 on; else `1.man · 2^(exp − 127) = t`. -/
def IsPattern32 (t p : Nat) : Prop :=
  (t = 0 ∧ p = 0) ∨ (2 ^ 128 ≤ t ∧ p = 0x7F800000) ∨
  (0 < t ∧ t < 2 ^ 128 ∧ ∃ exp man, exp < 255 ∧ man < 2 ^ 23 ∧ p = exp * 2 ^ 23 + man ∧
    (2 ^ 23 + man) * 2 ^ exp = t * 2 ^ 150)

/-- `p` is the binary64 pattern of the number `t`, never an infinity. -/
def IsPattern64 (t p : Nat) : Prop :=
  (t = 0 ∧ p = 0) ∨
  (0 < t ∧ ∃ exp man, exp < 2047 ∧ man < 2 ^ 52 ∧ p = exp * 2 ^ 52 + man ∧ (2 ^ 52 + man) * 2 ^ exp = t * 2 ^ 1075)

/-- The commands of a pseudo-instruction (R51). -/
def commandsOf (p : Pseudo) : List Command := (expand p).filterMap assemble

/-- Issuing all commands of a pseudo-instruction ends with `R` = `v` and no fault. -/
def Computes (p : Pseudo) (s : State) (v : Value) : Prop :=
  ∃ t : State, Sys2Proof.core.run (expand p).length (s.load (commandsOf p)) = .next t ∧
    t.r = v ∧ t.fault = s.fault ∧ t.cause = s.cause

/-- The Value of a pseudo-instruction's left operand. -/
def leftValue (s : State) : AsmLeft → Value
  | .reg => s.r
  | .lit v => v

/-- The lines R50 admits: ZERO takes no operand; the left operand of any other operation is a literal exactly where it
is port `A`; a right literal stands on the binary operations, which are listed first, and on no others. -/
def Admitted (l : AsmLine) : Prop :=
  match l.instr with
  | .mulw x | .divw x | .add x | .sub x | .mul x | .div x | .mod x | .shl x | .shr x | .and x | .or x | .xor x
  | .cmp x | .eq x | .ne x | .lt x | .le x | .gt x | .ge x => (l.left.isSome ↔ x = .portA) ∧ l.right.isSome
  | .clz x | .set x | .cvtb x | .cvtu8 x | .cvtu16 x | .cvtu32 x | .cvtu64 x | .cvts8 x | .cvts16 x | .cvts32 x
  | .cvts64 x | .cvtf32 x | .cvtf64 x | .not x | .trunc8 x | .trunc16 x | .trunc32 x | .trunc64 x | .fcvt32 x
  | .fcvt64 x => (l.left.isSome ↔ x = .portA) ∧ l.right = none
  | .zero => l.left = none ∧ l.right = none

/-- R149's column "condition", row by row: when an operation raises a cause, on its operands alone. -/
def Raises (s : State) : Instr → Cause → Prop
  | .div _, c | .mod _, c => c = .divZero ∧ (B s).toNat = 0
  | .divw x, c =>
    (c = .divZero ∧ (B s).lo.toNat = 0) ∨
    (c = .divwOverflow ∧ (B s).lo.toNat ≠ 0 ∧ (B s).lo.toNat ≤ (X s x).hi.toNat)
  | .shl _, c | .shr _, c => c = .shiftRange ∧ 128 ≤ (B s).toNat
  | .cvtf32 x, c => c = .fpNonfinite ∧ (X s x).lo.toNat / 2 ^ 23 % 2 ^ 8 = 0xFF
  | .cvtf64 x, c =>
    (c = .fpNonfinite ∧ (X s x).lo.toNat / 2 ^ 52 % 2 ^ 11 = 0x7FF) ∨
    (c = .shiftRange ∧ (X s x).lo.toNat / 2 ^ 52 % 2 ^ 11 ≠ 0x7FF ∧ 1203 ≤ (X s x).lo.toNat / 2 ^ 52 % 2 ^ 11)
  | .clz x, c => c = .clzZero ∧ (X s x).lo.toNat = 0
  | .mulw _, _ | .zero, _ | .set _, _ | .cvtb _, _
  | .cvtu8 _, _ | .cvtu16 _, _ | .cvtu32 _, _ | .cvtu64 _, _
  | .cvts8 _, _ | .cvts16 _, _ | .cvts32 _, _ | .cvts64 _, _
  | .add _, _ | .sub _, _ | .mul _, _ | .and _, _ | .or _, _ | .xor _, _ | .not _, _
  | .cmp _, _ | .eq _, _ | .ne _, _ | .lt _, _ | .le _, _ | .gt _, _ | .ge _, _
  | .trunc8 _, _ | .trunc16 _, _ | .trunc32 _, _ | .trunc64 _, _ | .fcvt32 _, _ | .fcvt64 _, _ => False

end Sys2Proof.Claims

open Sys2Proof Sys2Proof.Machine Sys2Proof.Claims

/-! Reset, the handshake, the step. -/

/-- R171: the reset values; the unit is not busy and not faulted, so it is ready whatever the ports carry once `rst` is
0. -/
def Obligations.ResetStateHasTheStatedValues : Prop :=
  State.reset.r = ⟨0, 0⟩ ∧ State.reset.fault = false ∧ State.reset.cause = .none ∧
  State.reset.cause.code = 0 ∧
  ∀ p : PortIn, p.rst = false → ({ State.reset with inp := p } : State).cmdReady = true

/-- R170: a step with `rst` = 1 goes to the reset values from every state, whatever command is presented; `done` does
not pulse and the unit is not ready meanwhile. -/
def Obligations.ResetStepClearsTheUnit : Prop :=
  ∀ s : State, s.inp.rst = true →
    s.cmdReady = false ∧
    step s = .next (onward { s with r := ⟨0, 0⟩, fault := false, cause := .none, done := false })

/-- R49: an accepted control word that decodes runs its instruction, and the ports move on (the model's, log 2). -/
def Obligations.StepRunsTheDecodedCommand : Prop :=
  ∀ (s : State) (i : Instr), Accepts s → decode s.inp.cw = some i →
    ∃ t, exec i s = .next t ∧ step s = .next (onward t)

/-- R47, R150: an accepted illegal control word raises ILLEGAL_CMD, whatever the operands, and writes no part of `R`. -/
def Obligations.IllegalControlWordFaults : Prop :=
  ∀ s : State, Accepts s → Illegal s.inp.cw →
    step s = .next (onward { s with fault := true, cause := .illegalCmd, done := true })

/-- R20, R161, R169, R173: a step that accepts nothing holds `R`, `FAULT` and `CAUSE`, and nothing is queued. -/
def Obligations.UnacceptedStepHoldsTheState : Prop :=
  ∀ s : State, s.inp.rst = false → (s.inp.cmdValid = false ∨ s.fault = true) →
    step s = .next (onward { s with done := false })

/-- R161: while the host does not reset, a faulted unit keeps `R`, `FAULT` and `CAUSE` and stays not ready, for any
number of steps and whatever commands are presented. -/
def Obligations.FaultedUnitIsStuckUntilReset : Prop :=
  ∀ (k : Nat) (s : State), s.fault = true → s.inp.rst = false → (∀ p ∈ s.host, p.rst = false) →
    ∃ t : State, Sys2Proof.core.run k s = .next t ∧
      t.r = s.r ∧ t.fault = true ∧ t.cause = s.cause ∧ t.cmdReady = false

/-- R162: a step of a faulted unit either is a reset, which sets `R` to 0, or leaves `FAULT`, `CAUSE` and `R` alone:
nothing else clears `FAULT`, and no second fault is recorded. -/
def Obligations.OnlyResetLeavesTheFaultedState : Prop :=
  ∀ s t : State, step s = .next t → s.fault = true →
    (s.inp.rst = true ∧ t.fault = false ∧ t.r = ⟨0, 0⟩) ∨
    (s.inp.rst = false ∧ t.fault = true ∧ t.cause = s.cause ∧ t.r = s.r)

/-- R178: the unit cannot hang or stop: any number of steps from any state has a next state. That a fault too is a next
state, and not a stop of the machine, is the model's reading (DEDUCED, log 6). -/
def Obligations.EveryRunGoesOn : Prop :=
  ∀ (k : Nat) (s : State), ∃ t : State, Sys2Proof.core.run k s = .next t

/-- R24: `CAUSE` = 0 when `FAULT` = 0 and 1 to 6 when `FAULT` = 1, kept by every step. -/
def Obligations.StepKeepsTheStatusInvariant : Prop :=
  ∀ s t : State, s.StatusOk → step s = .next t → t.StatusOk

/-- R24, R171: the invariant holds after reset. -/
def Obligations.ResetMeetsTheStatusInvariant : Prop := State.reset.StatusOk

/-- R159, R149: every command, in every state, either completes, changing only `R` (and pulsing `done`), or faults with
one of its own causes, changing only `FAULT` and `CAUSE` (and pulsing `done`). -/
def Obligations.CommandCompletesOrFaultsPrecisely : Prop :=
  ∀ (i : Instr) (s : State), (∃ v, Completes i s v) ∨ ∃ c ∈ causes i, FaultsWith i s c

/-- R44: an operation's outcome depends on no operand bit but those it is said to read. -/
def Obligations.IgnoredOperandBitsHaveNoEffect : Prop :=
  ∀ (i : Instr) (s s' : State), reads s i = reads s' i →
    (∃ v, Completes i s v ∧ Completes i s' v) ∨ ∃ c, FaultsWith i s c ∧ FaultsWith i s' c

/-- R149: the seven codes. -/
def Obligations.CauseCodesAreTheStatedNumbers : Prop :=
  Cause.none.code = 0 ∧ Cause.illegalCmd.code = 1 ∧ Cause.divZero.code = 2 ∧ Cause.divwOverflow.code = 3 ∧
  Cause.shiftRange.code = 4 ∧ Cause.fpNonfinite.code = 5 ∧ Cause.clzZero.code = 6

/-- R19: the output ports show the state: `r` is `R` as one 128-bit number, `cmd_ready` is 1 exactly when the unit is
not faulted (and not in reset, R170). -/
def Obligations.OutputPortsShowTheState : Prop :=
  ∀ s : State, s.outputs.r.toNat = s.r.toNat ∧ s.outputs.fault = s.fault ∧ s.outputs.cause = s.cause.code ∧
    s.outputs.done = s.done ∧ (s.outputs.cmdReady = true ↔ s.fault = false ∧ s.inp.rst = false)

/-! Encoding. -/

/-- R41, R42, R43: the decoder reads exactly the control words the encoder writes, with every operand form. -/
def Obligations.DecodeAndEncodeAgree : Prop :=
  ∀ (cw : ControlWord) (i : Instr), decode cw = some i ↔ encode i = cw

/-- R47: the decoder rejects exactly the illegal control words. -/
def Obligations.DecoderRejectsExactlyIllegalWords : Prop :=
  ∀ cw : ControlWord, decode cw = none ↔ Illegal cw

/-- R47, R41: every control word either belongs to exactly one row of the opcode table or is illegal. -/
def Obligations.EveryWordHasOneRowOrIsIllegal : Prop :=
  ∀ cw : ControlWord,
    ((opTable.filter fun row => cw &&& row.mask == row.pattern).length = 1 ∧ ¬ Illegal cw) ∨
    ((opTable.filter fun row => cw &&& row.mask == row.pattern) = [] ∧ Illegal cw)

/-- R42, R43, R47: words written out from the opcode map decode to the instructions they stand for. -/
def Obligations.SampleControlWordsDecode : Prop :=
  decode 0x0001 = some (.mulw .portA) ∧ decode 0x0403 = some (.clz .regR) ∧
  decode 0x0010 = some .zero ∧ decode 0x0410 = none ∧ decode 0x0713 = some (.cvtu64 .regR) ∧
  decode 0x0514 = some (.cvts16 .regR) ∧ decode 0x0420 = some (.add .regR) ∧ decode 0x0120 = none ∧
  decode 0x0031 = some (.shr .portA) ∧ decode 0x0440 = some (.cmp .regR) ∧ decode 0x0250 = some (.trunc32 .portA) ∧
  decode 0x0452 = some (.fcvt64 .regR) ∧ decode 0x0000 = none ∧ decode 0x0820 = none

/-- R40: a command as one 272-bit string holds `CW` in bits 271 to 256, `B` in 255 to 128, `A` in 127 to 0, and is read
back from it. -/
def Obligations.CommandStringHoldsTheThreeFields : Prop :=
  ∀ c : Command, c.bits.toNat = c.cw.toNat * 2 ^ 256 + c.b.toNat * 2 ^ 128 + c.a.toNat ∧ Command.ofBits c.bits = c

/-- R50: a line it admits becomes the command of its operation, with the left literal on `A` and the right one on `B`, 0
where there is none; any other line becomes none. -/
def Obligations.AssemblerEncodesItsLine : Prop :=
  ∀ l : AsmLine,
    (Admitted l → ∃ c, assemble l = some c ∧ decode c.cw = some l.instr ∧
      c.a = l.left.getD ⟨0, 0⟩ ∧ c.b = l.right.getD ⟨0, 0⟩) ∧
    (¬ Admitted l → assemble l = none)

/-- R51: what each pseudo-instruction's commands compute, issued one after the other to a unit that is not faulted; and
the word form puts the word, zero-extended, on `B` (R46). -/
def Obligations.PseudoInstructionsComputeTheirMeaning : Prop :=
  ∀ s : State, s.fault = false →
    Computes .min s ⟨0, 0⟩ ∧
    Computes .max s (Value.ofNat (2 ^ 128 - 1)) ∧
    (∀ left, Computes (.neg left) s (Value.ofNat (2 ^ 128 - (leftValue s left).toNat))) ∧
    (∀ v, Computes (.mov v) s v) ∧
    Computes .inc s (Value.ofNat (s.r.toNat + 1)) ∧
    Computes .dec s (Value.ofNat (s.r.toNat + (2 ^ 128 - 1))) ∧
    (∀ i left w, expand (.word i left w) = [⟨i, left, some ⟨w, 0⟩⟩])

/-! Primitives. -/

/-- R60, R61: MULW writes the exact 128-bit product of the two low words. -/
def Obligations.MulwWritesTheExactProduct : Prop :=
  HasWords .mulw 0x0001 ∧
  ∀ s x, Completes (.mulw x) s (Value.ofNat ((X s x).lo.toNat * (B s).lo.toNat))

/-- R62, R63: DIVW writes quotient and remainder of the 128-bit dividend when the quotient fits; a zero divisor word is
DIV_ZERO, else a dividend whose high word is not below the divisor is DIVW_OVERFLOW. -/
def Obligations.DivwWritesQuotientAndRemainder : Prop :=
  HasWords .divw 0x0002 ∧
  ∀ s x,
    ((X s x).hi.toNat < (B s).lo.toNat →
      ∃ v, Completes (.divw x) s v ∧ v.lo.toNat = (X s x).toNat / (B s).lo.toNat ∧
        v.hi.toNat = (X s x).toNat % (B s).lo.toNat) ∧
    ((B s).lo.toNat = 0 → FaultsWith (.divw x) s .divZero) ∧
    ((B s).lo.toNat ≠ 0 → (B s).lo.toNat ≤ (X s x).hi.toNat → FaultsWith (.divw x) s .divwOverflow)

/-- R64, R65: CLZ writes the number `n` of zeros above the top set bit of `X.lo`, which is then bit `63 − n`; a zero
word is CLZ_ZERO. -/
def Obligations.ClzCountsLeadingZeros : Prop :=
  HasWords .clz 0x0003 ∧
  ∀ s x,
    ((X s x).lo.toNat ≠ 0 →
      ∃ n : Nat, n ≤ 63 ∧ 2 ^ (63 - n) ≤ (X s x).lo.toNat ∧ (X s x).lo.toNat < 2 ^ (64 - n) ∧
        Completes (.clz x) s (Value.ofNat n)) ∧
    ((X s x).lo.toNat = 0 → FaultsWith (.clz x) s .clzZero)

/-- R69: joining the fields a pattern splits into gives the pattern back. -/
def Obligations.FieldJoinInvertsFieldSplit : Prop :=
  (∀ u : BitVec 32, fjoin32 (fsplit32 u) = u) ∧ (∀ u : BitVec 64, fjoin64 (fsplit64 u) = u)

/-! Construction. -/

/-- R75, R76: ZERO writes 0, whatever the operands; SET writes `X`. -/
def Obligations.ZeroAndSetWriteTheirValue : Prop :=
  decode 0x0010 = some .zero ∧ decode 0x0410 = none ∧ HasWords .set 0x0011 ∧
  (∀ s, Completes .zero s ⟨0, 0⟩) ∧ (∀ s x, Completes (.set x) s (X s x))

/-- R77, R78: CVTB writes bit 0 of `X.lo`; CVTU.w writes the low `w` bits of `X.lo`, zero-extended. -/
def Obligations.UnsignedConstructionZeroExtends : Prop :=
  HasWords .cvtb 0x0012 ∧ HasWords .cvtu8 0x0013 ∧ HasWords .cvtu16 0x0113 ∧ HasWords .cvtu32 0x0213 ∧
  HasWords .cvtu64 0x0313 ∧
  ∀ s x,
    Completes (.cvtb x) s (Value.ofNat ((X s x).lo.toNat % 2)) ∧
    Completes (.cvtu8 x) s (Value.ofNat ((X s x).lo.toNat % 2 ^ 8)) ∧
    Completes (.cvtu16 x) s (Value.ofNat ((X s x).lo.toNat % 2 ^ 16)) ∧
    Completes (.cvtu32 x) s (Value.ofNat ((X s x).lo.toNat % 2 ^ 32)) ∧
    Completes (.cvtu64 x) s (Value.ofNat ((X s x).lo.toNat))

/-- R79: CVTS.w writes the low `w` bits of `X.lo`, read in two's complement, modulo 2^128. -/
def Obligations.SignedConstructionSignExtends : Prop :=
  HasWords .cvts8 0x0014 ∧ HasWords .cvts16 0x0114 ∧ HasWords .cvts32 0x0214 ∧ HasWords .cvts64 0x0314 ∧
  ∀ s x,
    Completes (.cvts8 x) s (ofInt ((X s x).lo.setWidth 8).toInt) ∧
    Completes (.cvts16 x) s (ofInt ((X s x).lo.setWidth 16).toInt) ∧
    Completes (.cvts32 x) s (ofInt ((X s x).lo.setWidth 32).toInt) ∧
    Completes (.cvts64 x) s (ofInt ((X s x).lo).toInt)

/-- R81, R82: CVTF32 writes the integer part of a finite binary32 pattern modulo 2^128, negated under the sign; an
all-ones exponent is FP_NONFINITE. -/
def Obligations.Cvtf32WritesTheIntegerPart : Prop :=
  HasWords .cvtf32 0x0015 ∧
  ∀ s x,
    ((X s x).lo.toNat / 2 ^ 23 % 2 ^ 8 ≠ 255 → Completes (.cvtf32 x) s (ofInt (trunc32 (X s x).lo.toNat))) ∧
    ((X s x).lo.toNat / 2 ^ 23 % 2 ^ 8 = 255 → FaultsWith (.cvtf32 x) s .fpNonfinite)

/-- R81, R83: CVTF64 writes the integer part of a finite binary64 pattern modulo 2^128, negated under the sign, when the
biased exponent is below 1203; a finite pattern above is SHIFT_RANGE, an all-ones exponent FP_NONFINITE. -/
def Obligations.Cvtf64WritesTheIntegerPart : Prop :=
  HasWords .cvtf64 0x0016 ∧
  ∀ s x,
    ((X s x).lo.toNat / 2 ^ 52 % 2 ^ 11 < 1203 → Completes (.cvtf64 x) s (ofInt (trunc64 (X s x).lo.toNat))) ∧
    (1203 ≤ (X s x).lo.toNat / 2 ^ 52 % 2 ^ 11 → (X s x).lo.toNat / 2 ^ 52 % 2 ^ 11 ≠ 2047 →
      FaultsWith (.cvtf64 x) s .shiftRange) ∧
    ((X s x).lo.toNat / 2 ^ 52 % 2 ^ 11 = 2047 → FaultsWith (.cvtf64 x) s .fpNonfinite)

/-! Arithmetic. -/

/-- R91, R92: ADD writes the sum modulo 2^128. -/
def Obligations.AddWritesTheSum : Prop :=
  HasWords .add 0x0020 ∧ ∀ s x, Completes (.add x) s (Value.ofNat ((X s x).toNat + (B s).toNat))

/-- R93, R94: SUB writes the difference modulo 2^128. -/
def Obligations.SubWritesTheDifference : Prop :=
  HasWords .sub 0x0021 ∧ ∀ s x, Completes (.sub x) s (ofInt ((X s x).toNat - (B s).toNat))

/-- R95, R96: MUL writes the product modulo 2^128. -/
def Obligations.MulWritesTheProduct : Prop :=
  HasWords .mul 0x0022 ∧ ∀ s x, Completes (.mul x) s (Value.ofNat ((X s x).toNat * (B s).toNat))

/-- R97 to R101, R103: DIV writes the quotient for every nonzero divisor, by either path; a zero divisor is DIV_ZERO. -/
def Obligations.DivWritesTheQuotient : Prop :=
  HasWords .div 0x0023 ∧
  ∀ s x,
    ((B s).toNat ≠ 0 → Completes (.div x) s (Value.ofNat ((X s x).toNat / (B s).toNat))) ∧
    ((B s).toNat = 0 → FaultsWith (.div x) s .divZero)

/-- R97 to R100, R102, R103: MOD writes the remainder for every nonzero divisor; a zero divisor is DIV_ZERO. -/
def Obligations.ModWritesTheRemainder : Prop :=
  HasWords .mod 0x0024 ∧
  ∀ s x,
    ((B s).toNat ≠ 0 → Completes (.mod x) s (Value.ofNat ((X s x).toNat % (B s).toNat))) ∧
    ((B s).toNat = 0 → FaultsWith (.mod x) s .divZero)

/-- R98, R99 (a) to (d), (f): on the branch that divides, both leading-zero counts exist and the divisor's is not the
smaller; the division is the loop run exactly their difference plus one times, at most 64, on the divisor shifted left
by the difference; and that loop ends with quotient and remainder. -/
def Obligations.LongDivisionTakesAtMost64Iterations : Prop :=
  ∀ a d : Value, d.hi ≠ 0 → d.toNat ≤ a.toNat →
    ∃ cd ca : Fin 64, clz64 d.hi = .ok cd ∧ clz64 a.hi = .ok ca ∧ ca ≤ cd ∧ cd.val - ca.val + 1 ≤ 64 ∧
      let shift : Fin 128 := ⟨cd.val - ca.val, by have := cd.isLt; omega⟩
      let result := longLoop (cd.val - ca.val + 1) a (shl128 d shift) 0
      divmodLong a d = .ok (⟨result.1, 0⟩, result.2) ∧
        result.1.toNat = a.toNat / d.toNat ∧ result.2.toNat = a.toNat % d.toNat

/-! Shifts and bitwise logic. -/

/-- R105 to R107: SHL multiplies by 2^B modulo 2^128 for amounts 0 to 127; 128 or more is SHIFT_RANGE. -/
def Obligations.ShlMultipliesByAPowerOfTwo : Prop :=
  HasWords .shl 0x0030 ∧
  ∀ s x,
    ((B s).toNat < 128 → Completes (.shl x) s (Value.ofNat ((X s x).toNat * 2 ^ (B s).toNat))) ∧
    (128 ≤ (B s).toNat → FaultsWith (.shl x) s .shiftRange)

/-- R105, R108, R109: SHR divides by 2^B for amounts 0 to 127; 128 or more is SHIFT_RANGE. -/
def Obligations.ShrDividesByAPowerOfTwo : Prop :=
  HasWords .shr 0x0031 ∧
  ∀ s x,
    ((B s).toNat < 128 → Completes (.shr x) s (Value.ofNat ((X s x).toNat / 2 ^ (B s).toNat))) ∧
    (128 ≤ (B s).toNat → FaultsWith (.shr x) s .shiftRange)

/-- R110 to R113: AND, OR, XOR and NOT act on the 128 bits of the numbers. -/
def Obligations.BitwiseCommandsActOnEveryBit : Prop :=
  HasWords .and 0x0032 ∧ HasWords .or 0x0033 ∧ HasWords .xor 0x0034 ∧ HasWords .not 0x0035 ∧
  ∀ s x,
    Completes (.and x) s (Value.ofNat ((X s x).toNat &&& (B s).toNat)) ∧
    Completes (.or x) s (Value.ofNat ((X s x).toNat ||| (B s).toNat)) ∧
    Completes (.xor x) s (Value.ofNat ((X s x).toNat ^^^ (B s).toNat)) ∧
    Completes (.not x) s (Value.ofNat (2 ^ 128 - 1 - (X s x).toNat))

/-- R114: a left shift undone by a right one clears the top `s` bits, a right shift undone by a left one the low `s`
bits. -/
def Obligations.ShiftThereAndBackClearsBits : Prop :=
  ∀ (x : Value) (s : Fin 128),
    shr128 (shl128 x s) s = Value.ofNat (x.toNat % 2 ^ (128 - s.val)) ∧
    (x.toNat < 2 ^ (128 - s.val) → shr128 (shl128 x s) s = x) ∧
    shl128 (shr128 x s) s = Value.ofNat (x.toNat - x.toNat % 2 ^ s.val)

/-! Ordering. -/

/-- R121, R122: CMP writes 0, 1 or all ones as the number `X` is equal to, greater than or less than `B`, unsigned. -/
def Obligations.CmpWritesTheThreeWayResult : Prop :=
  HasWords .cmp 0x0040 ∧
  ∀ s x,
    ((X s x).toNat = (B s).toNat → Completes (.cmp x) s ⟨0, 0⟩) ∧
    ((X s x).toNat > (B s).toNat → Completes (.cmp x) s ⟨1, 0⟩) ∧
    ((X s x).toNat < (B s).toNat → Completes (.cmp x) s ⟨0xFFFFFFFFFFFFFFFF, 0xFFFFFFFFFFFFFFFF⟩)

/-- R120, R123 to R128: the six predicates write 1 or 0 as the numbers compare, unsigned. -/
def Obligations.PredicatesWriteOneOrZero : Prop :=
  HasWords .eq 0x0041 ∧ HasWords .ne 0x0042 ∧ HasWords .lt 0x0043 ∧ HasWords .le 0x0044 ∧ HasWords .gt 0x0045 ∧
  HasWords .ge 0x0046 ∧
  ∀ s x,
    Completes (.eq x) s (truth ((X s x).toNat = (B s).toNat)) ∧
    Completes (.ne x) s (truth ((X s x).toNat ≠ (B s).toNat)) ∧
    Completes (.lt x) s (truth ((X s x).toNat < (B s).toNat)) ∧
    Completes (.le x) s (truth ((X s x).toNat ≤ (B s).toNat)) ∧
    Completes (.gt x) s (truth ((X s x).toNat > (B s).toNat)) ∧
    Completes (.ge x) s (truth ((X s x).toNat ≥ (B s).toNat))

/-! Conversion out. -/

/-- R130: TRUNC.w writes `X mod 2^w`. -/
def Obligations.TruncWritesTheLowBits : Prop :=
  HasWords .trunc8 0x0050 ∧ HasWords .trunc16 0x0150 ∧ HasWords .trunc32 0x0250 ∧ HasWords .trunc64 0x0350 ∧
  ∀ s x,
    Completes (.trunc8 x) s (Value.ofNat ((X s x).toNat % 2 ^ 8)) ∧
    Completes (.trunc16 x) s (Value.ofNat ((X s x).toNat % 2 ^ 16)) ∧
    Completes (.trunc32 x) s (Value.ofNat ((X s x).toNat % 2 ^ 32)) ∧
    Completes (.trunc64 x) s (Value.ofNat ((X s x).toNat % 2 ^ 64))

/-- R131 to R133: FCVT32 rounds `X.hi`, then `X.lo`, then their combination, each to the nearest number of 24
significand bits, ties to even, and writes the binary32 pattern, +infinity from 2^128 on, zero-extended.
FP_ROUND is the value the spec fixes (log 7). -/
def Obligations.Fcvt32RoundsThreeTimes : Prop :=
  HasWords .fcvt32 0x0051 ∧
  ∀ s x, ∃ h l t p, NearestEven 24 (X s x).hi.toNat h ∧ NearestEven 24 (X s x).lo.toNat l ∧
    NearestEven 24 (h * 2 ^ 64 + l) t ∧ IsPattern32 t p ∧ Completes (.fcvt32 x) s (Value.ofNat p)

/-- R131, R132, R134: FCVT64 does the same with 53 significand bits and writes the binary64 pattern, which is never an
infinity. -/
def Obligations.Fcvt64RoundsThreeTimes : Prop :=
  HasWords .fcvt64 0x0052 ∧
  ∀ s x, ∃ h l t p, NearestEven 53 (X s x).hi.toNat h ∧ NearestEven 53 (X s x).lo.toNat l ∧
    NearestEven 53 (h * 2 ^ 64 + l) t ∧ IsPattern64 t p ∧ Completes (.fcvt64 x) s (Value.ofNat p)

/-- R132: for every rounding rule, words of at most 24 (53) significand bits convert exactly, and a Value of at most 24
(53) significand bits converts to exactly its own pattern. -/
def Obligations.ExactConversionsHoldForEveryRounding : Prop :=
  ∀ (rnd : FpRound) (x : Value),
    (Representable 24 x.hi.toNat → cvtF rnd binary32 x.hi = .finite x.hi.toNat) ∧
    (Representable 24 x.lo.toNat → cvtF rnd binary32 x.lo = .finite x.lo.toNat) ∧
    (Representable 53 x.hi.toNat → cvtF rnd binary64 x.hi = .finite x.hi.toNat) ∧
    (Representable 53 x.lo.toNat → cvtF rnd binary64 x.lo = .finite x.lo.toNat) ∧
    (Representable 24 x.toNat → IsPattern32 x.toNat (u128ToBinary32 rnd x).toNat) ∧
    (Representable 53 x.toNat → IsPattern64 x.toNat (u128ToBinary64 rnd x).toNat)

/-- R133: FCVT32 overflows to +infinity, 0x7F800000, exactly when `X.hi ≥ 0xFFFFFF8000000000`. -/
def Obligations.Fcvt32OverflowsToInfinity : Prop :=
  ∀ s x,
    (0xFFFFFF8000000000 ≤ (X s x).hi.toNat → Completes (.fcvt32 x) s ⟨0x7F800000, 0⟩) ∧
    ((X s x).hi.toNat < 0xFFFFFF8000000000 → ∃ p, p < 0x7F800000 ∧ Completes (.fcvt32 x) s (Value.ofNat p))

/-! The text codec, a host procedure over the unit's commands. -/

/-- R141: the text of a Value is its decimal digits, most significant first, without a leading zero but for "0". -/
def Obligations.EncodeTextIsDecimal : Prop :=
  ∀ (s : State) (v : Value), s.fault = false →
    encodeText s v = if v.toNat = 0 then ['0'] else (Nat.digits 10 v.toNat).reverse.map digitChar

/-- R142: a digit string decodes to its number modulo 2^128; `+` changes nothing; `-` negates modulo 2^128. -/
def Obligations.DecodeTextIsTheNumberModulo : Prop :=
  ∀ (s : State) (ds : List Nat), s.fault = false → ds ≠ [] → (∀ d ∈ ds, d < 10) →
    let n := ds.foldl (fun acc d => acc * 10 + d) 0
    decodeText s (ds.map digitChar) = some (Value.ofNat n) ∧
    decodeText s ('+' :: ds.map digitChar) = some (Value.ofNat n) ∧
    decodeText s ('-' :: ds.map digitChar) = some (ofInt (-(n : Int)))

/-- R145, for every Value: decoding the text of a Value gives the Value back. -/
def Obligations.TextRoundTripGivesTheValueBack : Prop :=
  ∀ (s : State) (v : Value), s.fault = false → decodeText s (encodeText s v) = some v

/-! Where every operation completes. -/

/-- R149: an operation raises a cause on exactly the operands the table names, and every other operation and operand
combination completes: MULW, ZERO, SET, CVTB, CVTU.w, CVTS.w, ADD, SUB, MUL, AND, OR, XOR, NOT, CMP, EQ, NE, LT, LE, GT,
GE, TRUNC.w, FCVT32 and FCVT64 in every state; CVTF32, CVTF64, DIV, MOD, DIVW, CLZ, SHL and SHR where no condition of
theirs holds. -/
def Obligations.EveryOtherOperandCombinationCompletes : Prop :=
  ∀ (i : Instr) (s : State),
    ((∀ c, ¬ Raises s i c) → ∃ v, Completes i s v) ∧ (∀ c, Raises s i c → FaultsWith i s c)
end

