-- ==== Sys2Proof/Laws/Value.lean ====
section
/-! SUPPORT. A Value and the number it represents: the two are the same thing modulo 2^128. -/

namespace Sys2Proof.Value

theorem toNat_lt (v : Value) : v.toNat < 2 ^ 128 := by
  have h1 := v.lo.isLt
  have h2 := v.hi.isLt
  unfold toNat
  omega

theorem ext_toNat {x y : Value} (h : x.toNat = y.toNat) : x = y := by
  obtain ⟨xl, xh⟩ := x
  obtain ⟨yl, yh⟩ := y
  have h1 := xl.isLt
  have h2 := yl.isLt
  simp only [toNat] at h
  have hl : xl = yl := BitVec.eq_of_toNat_eq (by omega)
  have hh : xh = yh := BitVec.eq_of_toNat_eq (by omega)
  rw [hl, hh]

theorem lo_toNat (v : Value) : v.lo.toNat = v.toNat % 2 ^ 64 := by
  have h1 := v.lo.isLt
  unfold toNat
  omega

theorem hi_toNat (v : Value) : v.hi.toNat = v.toNat / 2 ^ 64 := by
  have h1 := v.lo.isLt
  unfold toNat
  omega

theorem toNat_ofNat (n : Nat) : (ofNat n).toNat = n % 2 ^ 128 := by
  simp only [toNat, ofNat, BitVec.toNat_ofNat]
  omega

theorem ofNat_toNat (v : Value) : ofNat v.toNat = v :=
  ext_toNat (by rw [toNat_ofNat, Nat.mod_eq_of_lt v.toNat_lt])

/-- A Value with the right number is the Value of that number: how a spec lemma becomes an equation of Values. -/
theorem eq_ofNat {v : Value} {n : Nat} (h : v.toNat = n % 2 ^ 128) : v = ofNat n :=
  ext_toNat (by rw [h, toNat_ofNat])

theorem toNat_mk (lo hi : Word) : (Value.mk lo hi).toNat = lo.toNat + hi.toNat * 2 ^ 64 := rfl

theorem eq_zero_iff (v : Value) : v.toNat = 0 ↔ v.lo = 0 ∧ v.hi = 0 := by
  constructor
  · intro h
    unfold toNat at h
    exact ⟨BitVec.eq_of_toNat_eq (by simp; omega), BitVec.eq_of_toNat_eq (by simp; omega)⟩
  · rintro ⟨hl, hh⟩
    simp [toNat, hl, hh]

end Sys2Proof.Value
end

