-- ==== Sys2Proof/Laws/Shift.lean ====
section
/-! SUPPORT. The shifters and the bitwise functions as arithmetic on the numbers they act on. -/

namespace Sys2Proof.Machine

theorem wordShl_toNat (w : Word) (n : Fin 64) : (wordShl w n).toNat = w.toNat * 2 ^ n.val % 2 ^ 64 := by
  simp [wordShl, BitVec.toNat_shiftLeft, Nat.shiftLeft_eq]

theorem wordShr_toNat (w : Word) (n : Fin 64) : (wordShr w n).toNat = w.toNat / 2 ^ n.val := by
  simp [wordShr, BitVec.toNat_ushiftRight, Nat.shiftRight_eq_div_pow]

/-- An `or` of two words whose set bits lie on different sides of a position is their sum. -/
theorem or_toNat_of_split {a b : Word} {k : Nat} (hb : b.toNat < 2 ^ k) (ha : a.toNat % 2 ^ k = 0) :
    (a ||| b).toNat = a.toNat + b.toNat := by
  have h := Nat.two_pow_add_eq_or_of_lt hb (a.toNat / 2 ^ k)
  rw [Nat.mul_div_cancel' (Nat.dvd_of_mod_eq_zero ha)] at h
  rw [BitVec.toNat_or, ← h]

/-- The bits a left shift by `s` moves out of a 64-bit word are the word shifted right by `64 - s`. -/
theorem mul_two_pow_div_two_pow (lo : Nat) {s : Nat} (h : s ≤ 64) : lo * 2 ^ s / 2 ^ 64 = lo / 2 ^ (64 - s) := by
  have e : (2 : Nat) ^ 64 = 2 ^ (64 - s) * 2 ^ s := by rw [← Nat.pow_add]; congr 1; omega
  rw [e, Nat.mul_div_mul_right _ _ (Nat.two_pow_pos s)]

theorem mul_two_pow_mod_two_pow (w : Nat) {s n : Nat} (h : s ≤ n) :
    w * 2 ^ s % 2 ^ n = w % 2 ^ (n - s) * 2 ^ s := by
  have e : (2 : Nat) ^ n = 2 ^ (n - s) * 2 ^ s := by rw [← Nat.pow_add]; congr 1; omega
  rw [e, Nat.mul_mod_mul_right]

/-- The left shifter multiplies by 2^s modulo 2^128 (R106). -/
theorem shl128_toNat (x : Value) (s : Fin 128) : (shl128 x s).toNat = x.toNat * 2 ^ s.val % 2 ^ 128 := by
  have hx := x.toNat_lt
  have hlo := x.lo.isLt
  unfold shl128
  split
  · next h0 => rw [h0, Nat.pow_zero, Nat.mul_one, Nat.mod_eq_of_lt hx]
  · next h0 =>
    split
    · next h =>
      have hs : s.val ≤ 64 := by omega
      have hP : (2 : Nat) ^ (64 - s.val) * 2 ^ s.val = 2 ^ 64 := by rw [← Nat.pow_add]; congr 1; omega
      have hr : x.lo.toNat / 2 ^ (64 - s.val) < 2 ^ s.val := by
        apply Nat.div_lt_of_lt_mul
        rw [hP]
        exact hlo
      have hm : x.hi.toNat * 2 ^ s.val % 2 ^ 64 = x.hi.toNat % 2 ^ (64 - s.val) * 2 ^ s.val :=
        mul_two_pow_mod_two_pow _ hs
      have hk : x.hi.toNat % 2 ^ (64 - s.val) + 1 ≤ 2 ^ (64 - s.val) := Nat.mod_lt _ (Nat.two_pow_pos _)
      have hb : x.hi.toNat % 2 ^ (64 - s.val) * 2 ^ s.val + 2 ^ s.val ≤ 2 ^ 64 := by
        calc x.hi.toNat % 2 ^ (64 - s.val) * 2 ^ s.val + 2 ^ s.val
            = (x.hi.toNat % 2 ^ (64 - s.val) + 1) * 2 ^ s.val := by ring
          _ ≤ 2 ^ (64 - s.val) * 2 ^ s.val := Nat.mul_le_mul_right _ hk
          _ = 2 ^ 64 := hP
      have hor := or_toNat_of_split (a := wordShl x.hi ⟨s.val, by omega⟩) (b := wordShr x.lo ⟨64 - s.val, by omega⟩)
        (k := s.val) (by rw [wordShr_toNat]; exact hr) (by rw [wordShl_toNat, hm]; simp)
      have hq : x.lo.toNat * 2 ^ s.val / 2 ^ 64 = x.lo.toNat / 2 ^ (64 - s.val) := mul_two_pow_div_two_pow _ hs
      simp only [Value.toNat, hor, wordShl_toNat, wordShr_toNat, Nat.add_mul, Nat.mul_right_comm _ (2 ^ 64) (2 ^ s.val)]
      generalize x.lo.toNat * 2 ^ s.val = A at *
      generalize x.hi.toNat * 2 ^ s.val = B at *
      generalize (2 : Nat) ^ s.val = P at *
      generalize x.hi.toNat % 2 ^ (64 - s.val) * P = C at *
      generalize x.lo.toNat / 2 ^ (64 - s.val) = D at *
      omega
    · next h =>
      have hs : s.val = (s.val - 64) + 64 := by omega
      simp only [Value.toNat, wordShl_toNat]
      conv_rhs => rw [hs, Nat.pow_add]
      generalize (2 : Nat) ^ (s.val - 64) = P
      have e : (x.lo.toNat + x.hi.toNat * 2 ^ 64) * (P * 2 ^ 64) =
          x.lo.toNat * P * 2 ^ 64 + x.hi.toNat * P * 2 ^ 128 := by ring
      rw [e]
      generalize x.lo.toNat * P = A
      generalize x.hi.toNat * P = B
      simp
      omega

/-- The right shifter divides by 2^s (R108). -/
theorem shr128_toNat (x : Value) (s : Fin 128) : (shr128 x s).toNat = x.toNat / 2 ^ s.val := by
  have hlo := x.lo.isLt
  unfold shr128
  split
  · next h0 => simp [h0]
  · next h0 =>
    split
    · next h =>
      have hs : 64 - s.val ≤ 64 := by omega
      have hss : 64 - (64 - s.val) = s.val := by omega
      have hP : (2 : Nat) ^ (64 - s.val) * 2 ^ s.val = 2 ^ 64 := by rw [← Nat.pow_add]; congr 1; omega
      have hr : x.lo.toNat / 2 ^ s.val < 2 ^ (64 - s.val) := by
        apply Nat.div_lt_of_lt_mul
        rw [Nat.mul_comm, hP]
        exact hlo
      have hm : x.hi.toNat * 2 ^ (64 - s.val) % 2 ^ 64 = x.hi.toNat % 2 ^ s.val * 2 ^ (64 - s.val) := by
        rw [mul_two_pow_mod_two_pow _ hs, hss]
      have hor := or_toNat_of_split (a := wordShl x.hi ⟨64 - s.val, by omega⟩) (b := wordShr x.lo ⟨s.val, by omega⟩)
        (k := 64 - s.val) (by rw [wordShr_toNat]; exact hr) (by rw [wordShl_toNat, hm]; simp)
      rw [BitVec.or_comm] at hor
      simp only [Value.toNat, hor, wordShl_toNat, wordShr_toNat, hm]
      have hd := Nat.div_add_mod x.hi.toNat (2 ^ s.val)
      have e : x.lo.toNat + x.hi.toNat * 2 ^ 64 =
          x.lo.toNat + (x.hi.toNat % 2 ^ s.val * 2 ^ (64 - s.val) + x.hi.toNat / 2 ^ s.val * 2 ^ 64) * 2 ^ s.val := by
        conv_lhs => rw [← hd, Nat.add_mul, ← hP]
        conv_rhs => rw [← hP]
        ring
      rw [e, Nat.add_mul_div_right _ _ (Nat.two_pow_pos s.val)]
      ring
    · next h =>
      have hs : s.val = 64 + (s.val - 64) := by omega
      simp only [Value.toNat, wordShr_toNat]
      conv_rhs => rw [hs, Nat.pow_add, ← Nat.div_div_eq_div_mul]
      have e : (x.lo.toNat + x.hi.toNat * 2 ^ 64) / 2 ^ 64 = x.hi.toNat := by omega
      rw [e]
      simp

theorem not128_toNat (x : Value) : (not128 x).toNat = 2 ^ 128 - 1 - x.toNat := by
  have h1 := x.lo.isLt
  have h2 := x.hi.isLt
  simp only [not128, Value.toNat, BitVec.toNat_not]
  omega

theorem shiftAmount_of_lt {b : Value} (h : b.toNat < 128) : shiftAmount b = .ok ⟨b.toNat, h⟩ := by
  simp [shiftAmount, h]

theorem shiftAmount_of_le {b : Value} (h : 128 ≤ b.toNat) : shiftAmount b = .error .shiftRange := by
  simp [shiftAmount, Nat.not_lt.mpr h]

end Sys2Proof.Machine
end

