-- ==== Sys2Proof/Laws/Arithmetic.lean ====
section
/-! SUPPORT. The primitives, the adder, the subtractor, the multiplier, the comparator and the two division paths as
arithmetic on the numbers they act on; and which causes each can raise. -/

namespace Sys2Proof.Machine

/-! The comparator. -/

/-- Lexicographic comparison of the words is comparison of the numbers (R121). -/
theorem cmp3_eq_compare (x y : Value) : cmp3 x y = compare x.toNat y.toNat := by
  have h1 := x.lo.isLt
  have h2 := y.lo.isLt
  unfold cmp3
  simp only [BitVec.lt_def, GT.gt]
  split
  · next h => exact (Nat.compare_eq_lt.mpr (by unfold Value.toNat; omega)).symm
  · split
    · next h => exact (Nat.compare_eq_gt.mpr (by unfold Value.toNat; omega)).symm
    · split
      · next h => exact (Nat.compare_eq_lt.mpr (by unfold Value.toNat; omega)).symm
      · split
        · next h => exact (Nat.compare_eq_gt.mpr (by unfold Value.toNat; omega)).symm
        · next h => exact (Nat.compare_eq_eq.mpr (by unfold Value.toNat; omega)).symm

theorem cmp3_eq_lt (x y : Value) : cmp3 x y = .lt ↔ x.toNat < y.toNat := by
  rw [cmp3_eq_compare, Nat.compare_eq_lt]

/-- Two Values are equal as words exactly when they are the same number (R120). -/
theorem eq128_iff (x y : Value) : eq128 x y = true ↔ x.toNat = y.toNat := by
  constructor
  · intro h
    simp only [eq128, Bool.and_eq_true, beq_iff_eq] at h
    simp [Value.toNat, h.1, h.2]
  · intro h
    simp [eq128, Value.ext_toNat h]

/-! The adder, the subtractor, the multiplier. -/

/-- ADD's function is addition modulo 2^128 (R91). -/
theorem add128_toNat (x y : Value) : (add128 x y).toNat = (x.toNat + y.toNat) % 2 ^ 128 := by
  have h1 := x.lo.isLt
  have h2 := y.lo.isLt
  have h3 := x.hi.isLt
  have h4 := y.hi.isLt
  simp only [add128, Value.toNat, carryOf, BitVec.lt_def, BitVec.toNat_add]
  split <;> simp <;> omega

/-- SUB's function is subtraction modulo 2^128 (R93). -/
theorem sub128_toNat (x y : Value) : (sub128 x y).toNat = (x.toNat + 2 ^ 128 - y.toNat) % 2 ^ 128 := by
  have h1 := x.lo.isLt
  have h2 := y.lo.isLt
  have h3 := x.hi.isLt
  have h4 := y.hi.isLt
  simp only [sub128, Value.toNat, borrowOf, GT.gt, BitVec.lt_def, BitVec.toNat_sub]
  split <;> simp <;> omega

theorem sub128_toNat_of_le {x y : Value} (h : y.toNat ≤ x.toNat) : (sub128 x y).toNat = x.toNat - y.toNat := by
  have := x.toNat_lt
  rw [sub128_toNat]
  omega

/-- The widening multiply is exact (R60). -/
theorem mulw64_toNat (x y : Word) : (mulw64 x y).1.toNat + (mulw64 x y).2.toNat * 2 ^ 64 = x.toNat * y.toNat := by
  have h : x.toNat * y.toNat < 2 ^ 64 * 2 ^ 64 := Nat.mul_lt_mul'' x.isLt y.isLt
  simp only [mulw64, BitVec.toNat_ofNat]
  generalize x.toNat * y.toNat = p at *
  omega

/-- The terms of the schoolbook product that survive truncation to 128 bits (R95). -/
theorem truncated_sum (p q b c t : Nat) (hp : p < 2 ^ 64) :
    p + ((q + b % 2 ^ 64) % 2 ^ 64 + c % 2 ^ 64) % 2 ^ 64 * 2 ^ 64 =
      (p + q * 2 ^ 64 + (b + c) * 2 ^ 64 + t * 2 ^ 128) % 2 ^ 128 := by
  omega

/-- MUL's function is multiplication modulo 2^128 (R95). -/
theorem mul128_toNat (x y : Value) : (mul128 x y).toNat = x.toNat * y.toNat % 2 ^ 128 := by
  have h := mulw64_toNat x.lo y.lo
  have e : x.toNat * y.toNat =
      x.lo.toNat * y.lo.toNat + (x.lo.toNat * y.hi.toNat + x.hi.toNat * y.lo.toNat) * 2 ^ 64 +
        x.hi.toNat * y.hi.toNat * 2 ^ 128 := by
    unfold Value.toNat
    ring
  have hl := (mulw64 x.lo y.lo).1.isLt
  rw [e, ← h]
  simp only [mul128, Value.toNat, BitVec.toNat_add, BitVec.toNat_mul]
  exact truncated_sum _ _ _ _ _ hl

/-! The leading-zero counter and the widening divider. -/

/-- A nonzero word has a count `n`, and its top set bit is bit `63 - n` (R64). -/
theorem clz64_spec {x : Word} (h : x ≠ 0) :
    ∃ n : Fin 64, clz64 x = .ok n ∧ 2 ^ (63 - n.val) ≤ x.toNat ∧ x.toNat < 2 ^ (64 - n.val) := by
  have hx : x.toNat ≠ 0 := fun h0 => h (BitVec.eq_of_toNat_eq (by simpa using h0))
  have hl : x.toNat.log2 < 64 := (Nat.log2_lt hx).mpr x.isLt
  refine ⟨⟨63 - x.toNat.log2, by omega⟩, by rw [clz64, if_neg h], ?_, ?_⟩
  · have : 63 - (63 - x.toNat.log2) = x.toNat.log2 := by omega
    rw [this]
    exact Nat.log2_self_le hx
  · have : 64 - (63 - x.toNat.log2) = x.toNat.log2 + 1 := by omega
    rw [this]
    exact Nat.lt_log2_self

theorem clz64_zero : clz64 0 = .error .clzZero := rfl

theorem clz64_error {x : Word} {c : Cause} (h : clz64 x = .error c) : c = .clzZero := by
  unfold clz64 at h
  split at h <;> simp_all

/-- On its precondition the widening divide gives quotient and remainder (R62). -/
theorem divw_spec {nHi nLo d : Word} (h : nHi.toNat < d.toNat) :
    ∃ q r : Word, divw nHi nLo d = .ok (q, r) ∧
      q.toNat = (nLo.toNat + nHi.toNat * 2 ^ 64) / d.toNat ∧
      r.toNat = (nLo.toNat + nHi.toNat * 2 ^ 64) % d.toNat := by
  have hd : d ≠ 0 := by rintro rfl; simp at h
  have hd0 : 0 < d.toNat := by omega
  have hge : ¬ nHi ≥ d := by simp only [ge_iff_le, BitVec.le_def]; omega
  refine ⟨_, _, by rw [divw, if_neg hd, if_neg hge], ?_, ?_⟩
  · rw [BitVec.toNat_ofNat]
    apply Nat.mod_eq_of_lt
    apply Nat.div_lt_of_lt_mul
    have hn := nLo.isLt
    calc nLo.toNat + nHi.toNat * 2 ^ 64 < (nHi.toNat + 1) * 2 ^ 64 := by omega
      _ ≤ d.toNat * 2 ^ 64 := Nat.mul_le_mul_right _ h
  · rw [BitVec.toNat_ofNat]
    exact Nat.mod_eq_of_lt (Nat.lt_trans (Nat.mod_lt _ hd0) d.isLt)

/-- Outside its precondition: DIV_ZERO before DIVW_OVERFLOW (R63, R158). -/
theorem divw_zero (nHi nLo : Word) : divw nHi nLo 0 = .error .divZero := rfl

theorem divw_overflow {nHi nLo d : Word} (hd : d ≠ 0) (h : d.toNat ≤ nHi.toNat) :
    divw nHi nLo d = .error .divwOverflow := by
  have hge : nHi ≥ d := by simpa [BitVec.le_def] using h
  rw [divw, if_neg hd, if_pos hge]

theorem divw_error {nHi nLo d : Word} {c : Cause} (h : divw nHi nLo d = .error c) :
    c = .divZero ∨ c = .divwOverflow := by
  unfold divw at h
  split at h
  · simp_all
  · split at h <;> simp_all

/-! The division paths. -/

/-- The small-divisor path divides (R97). -/
theorem divmodSmall_spec {a d : Value} (hhi : d.hi = 0) (hd : d.toNat ≠ 0) :
    ∃ q r : Value, divmodSmall a d = .ok (q, r) ∧ q.toNat = a.toNat / d.toNat ∧ r.toNat = a.toNat % d.toNat := by
  have hdl : d.toNat = d.lo.toNat := by simp [Value.toNat, hhi]
  have hlo : d.lo ≠ 0 := by intro h0; simp [hdl, h0] at hd
  have hpos : 0 < d.lo.toNat := by omega
  obtain ⟨qh, r1, e1, hq1, hr1⟩ := divw_spec (nHi := 0) (nLo := a.hi) (d := d.lo) (by simpa using hpos)
  simp only [show (0 : Word).toNat = 0 from rfl, Nat.zero_mul, Nat.add_zero] at hq1 hr1
  have hlt : r1.toNat < d.lo.toNat := by rw [hr1]; exact Nat.mod_lt _ hpos
  obtain ⟨ql, r, e2, hq2, hr2⟩ := divw_spec (nHi := r1) (nLo := a.lo) (d := d.lo) hlt
  refine ⟨⟨ql, qh⟩, ⟨r, 0⟩, ?_, ?_, ?_⟩
  · rw [divmodSmall, if_neg hlo, e1]
    simp only [bind, Except.bind, e2]
  all_goals
    have hm := Nat.div_add_mod a.hi.toNat d.lo.toNat
    rw [← hq1, ← hr1] at hm
    have ea : a.toNat = a.lo.toNat + r1.toNat * 2 ^ 64 + qh.toNat * 2 ^ 64 * d.lo.toNat := by
      rw [Value.toNat, ← hm]
      ring
    rw [hdl, ea]
  · rw [Nat.add_mul_div_right _ _ hpos, ← hq2]
    rfl
  · rw [Nat.add_mul_mod_self_right, ← hr2]
    simp [Value.toNat]

/-- The loop of the long division (R98, R99): with `n` iterations left, the shifted divisor is `D·2^(n-1)`, the
remaining dividend is below twice that, and the accumulator has room for `n` more bits. -/
theorem longLoop_spec (D : Nat) (hD : 0 < D) (n : Nat) :
    ∀ (rem dvs : Value) (q : Word), rem.toNat < D * 2 ^ n → (∀ m, n = m + 1 → dvs.toNat = D * 2 ^ m) →
      (q.toNat + 1) * 2 ^ n ≤ 2 ^ 64 →
      (longLoop n rem dvs q).1.toNat = q.toNat * 2 ^ n + rem.toNat / D ∧
      (longLoop n rem dvs q).2.toNat = rem.toNat % D := by
  induction n with
  | zero =>
    intro rem dvs q hrem _ _
    simp only [Nat.pow_zero, Nat.mul_one] at hrem
    simp [longLoop, Nat.div_eq_of_lt hrem, Nat.mod_eq_of_lt hrem]
  | succ n ih =>
    intro rem dvs q hrem hdvs hq
    have hdvs := hdvs n rfl
    have hpow : (2 : Nat) ^ (n + 1) = 2 * 2 ^ n := by rw [Nat.pow_succ]; ring
    have hpos : 0 < 2 ^ n := Nat.two_pow_pos n
    have hq' : (2 * q.toNat + 2) * 2 ^ n ≤ 2 ^ 64 := by
      calc (2 * q.toNat + 2) * 2 ^ n = (q.toNat + 1) * 2 ^ (n + 1) := by rw [hpow]; ring
        _ ≤ 2 ^ 64 := hq
    have hq1 : 2 * q.toNat + 2 ≤ 2 ^ 64 :=
      Nat.le_trans (Nat.le_mul_of_pos_right _ hpos) hq'
    have hq2 : (wordShl q 1).toNat = 2 * q.toNat := by
      rw [wordShl_toNat]
      have : ((1 : Fin 64) : Nat) = 1 := rfl
      rw [this]
      omega
    have hd2 : ∀ m, n = m + 1 → (shr128 dvs 1).toNat = D * 2 ^ m := by
      rintro m rfl
      rw [shr128_toNat, hdvs]
      have : ((1 : Fin 128) : Nat) = 1 := rfl
      rw [this, Nat.pow_succ, ← Nat.mul_assoc]
      simp
    by_cases hlt : rem.toNat < dvs.toNat
    · have hc : cmp3 rem dvs = .lt := (cmp3_eq_lt _ _).mpr hlt
      have h := ih rem (shr128 dvs 1) (wordShl q 1) (by rwa [hdvs] at hlt) hd2 (by
        rw [hq2]
        exact Nat.le_trans (Nat.mul_le_mul_right _ (by omega)) hq')
      rw [longLoop, if_pos hc, h.1, h.2, hq2, hpow]
      exact ⟨by ring, rfl⟩
    · have hc : ¬ cmp3 rem dvs = .lt := fun h => hlt ((cmp3_eq_lt _ _).mp h)
      have hor : (wordShl q 1 ||| 1).toNat = 2 * q.toNat + 1 := by
        rw [or_toNat_of_split (k := 1) (by decide) (by rw [hq2]; omega), hq2]
        rfl
      have hsub := sub128_toNat_of_le (Nat.not_lt.mp hlt)
      rw [hdvs] at hsub hlt
      have hle : D * 2 ^ n ≤ rem.toNat := Nat.not_lt.mp hlt
      have hrem' : rem.toNat - D * 2 ^ n < D * 2 ^ n := by
        have : D * 2 ^ (n + 1) = D * 2 ^ n + D * 2 ^ n := by rw [hpow]; ring
        omega
      have h := ih (sub128 rem dvs) (shr128 dvs 1) (wordShl q 1 ||| 1) (by rwa [hsub]) hd2 (by
        rw [hor]
        exact hq')
      have hsplit : rem.toNat = (rem.toNat - D * 2 ^ n) + D * 2 ^ n := by omega
      have hdiv : rem.toNat / D = (rem.toNat - D * 2 ^ n) / D + 2 ^ n := by
        conv_lhs => rw [hsplit]
        rw [Nat.add_mul_div_left _ _ hD]
      have hmod : rem.toNat % D = (rem.toNat - D * 2 ^ n) % D := by
        conv_lhs => rw [hsplit]
        rw [Nat.add_mul_mod_self_left]
      rw [longLoop, if_neg hc, h.1, h.2, hor, hsub, hpow, hdiv, hmod]
      exact ⟨by ring, rfl⟩

/-- A Value with a nonzero high word lies where the leading-zero count of that word says. -/
theorem toNat_bounds_of_clz {v : Value} {n : Fin 64} (h1 : 2 ^ (63 - n.val) ≤ v.hi.toNat)
    (h2 : v.hi.toNat < 2 ^ (64 - n.val)) : 2 ^ (127 - n.val) ≤ v.toNat ∧ v.toNat < 2 ^ (128 - n.val) := by
  have hl := v.lo.isLt
  have e1 : (2 : Nat) ^ (127 - n.val) = 2 ^ (63 - n.val) * 2 ^ 64 := by rw [← Nat.pow_add]; congr 1; omega
  have e2 : (2 : Nat) ^ (128 - n.val) = 2 ^ (64 - n.val) * 2 ^ 64 := by rw [← Nat.pow_add]; congr 1; omega
  rw [e1, e2]
  unfold Value.toNat
  omega

/-- The facts of R99 that the long division rests on: both words have a count, the divisor's is not the smaller, the
aligned divisor loses no bit, and the dividend is below twice the aligned divisor. -/
theorem align_spec {a d : Value} (hhi : d.hi ≠ 0) (hle : d.toNat ≤ a.toNat) :
    ∃ cd ca : Fin 64, clz64 d.hi = .ok cd ∧ clz64 a.hi = .ok ca ∧ ca.val ≤ cd.val ∧
      d.toNat * 2 ^ (cd.val - ca.val) < 2 ^ 128 ∧ a.toNat < d.toNat * 2 ^ (cd.val - ca.val + 1) := by
  have hd1 : d.hi.toNat ≠ 0 := fun h0 => hhi (BitVec.eq_of_toNat_eq (by simpa using h0))
  have ha : a.hi ≠ 0 := by
    intro h0
    have hl := a.lo.isLt
    have : a.toNat = a.lo.toNat := by simp [Value.toNat, h0]
    have : 2 ^ 64 ≤ d.toNat := by unfold Value.toNat; omega
    omega
  obtain ⟨cd, ed, hd2, hd3⟩ := clz64_spec hhi
  obtain ⟨ca, ea, ha2, ha3⟩ := clz64_spec ha
  obtain ⟨bd1, bd2⟩ := toNat_bounds_of_clz hd2 hd3
  obtain ⟨-, ba2⟩ := toNat_bounds_of_clz ha2 ha3
  have hcc : ca.val ≤ cd.val := by
    have : (2 : Nat) ^ (127 - cd.val) < 2 ^ (128 - ca.val) := by omega
    have := (Nat.pow_lt_pow_iff_right (by decide : 1 < 2)).mp this
    omega
  refine ⟨cd, ca, ed, ea, hcc, ?_, ?_⟩
  · calc d.toNat * 2 ^ (cd.val - ca.val)
        < 2 ^ (128 - cd.val) * 2 ^ (cd.val - ca.val) := (Nat.mul_lt_mul_right (Nat.two_pow_pos _)).mpr bd2
      _ = 2 ^ (128 - ca.val) := by rw [← Nat.pow_add]; congr 1; omega
      _ ≤ 2 ^ 128 := Nat.pow_le_pow_right (by decide) (by omega)
  · calc a.toNat < 2 ^ (128 - ca.val) := ba2
      _ = 2 ^ (127 - cd.val) * 2 ^ (cd.val - ca.val + 1) := by rw [← Nat.pow_add]; congr 1; omega
      _ ≤ d.toNat * 2 ^ (cd.val - ca.val + 1) := Nat.mul_le_mul_right _ bd1

/-- The long-division path divides (R98, R99). -/
theorem divmodLong_spec {a d : Value} (hhi : d.hi ≠ 0) :
    ∃ q r : Value, divmodLong a d = .ok (q, r) ∧ q.toNat = a.toNat / d.toNat ∧ r.toNat = a.toNat % d.toNat := by
  by_cases hlt : a.toNat < d.toNat
  · refine ⟨⟨0, 0⟩, a, by simp [divmodLong, (cmp3_eq_lt a d).mpr hlt], ?_, ?_⟩
    · rw [Nat.div_eq_of_lt hlt]
      rfl
    · rw [Nat.mod_eq_of_lt hlt]
  · have hc : ¬ cmp3 a d = .lt := fun h => hlt ((cmp3_eq_lt _ _).mp h)
    obtain ⟨cd, ca, ed, ea, hcc, hfit, hbound⟩ := align_spec hhi (Nat.not_lt.mp hlt)
    have hd0 : 0 < d.toNat := by
      have : d.hi.toNat ≠ 0 := fun h0 => hhi (BitVec.eq_of_toNat_eq (by simpa using h0))
      unfold Value.toNat
      omega
    have hdvs : (shl128 d ⟨cd.val - ca.val, by omega⟩).toNat = d.toNat * 2 ^ (cd.val - ca.val) := by
      rw [shl128_toNat]
      exact Nat.mod_eq_of_lt hfit
    have h := longLoop_spec d.toNat hd0 (cd.val - ca.val + 1) a (shl128 d ⟨cd.val - ca.val, by omega⟩) 0 hbound
      (by intro m hm; rw [hdvs, Nat.succ.inj hm]) (by
        simp only [show (0 : Word).toNat = 0 from rfl, Nat.zero_add, Nat.one_mul]
        exact Nat.pow_le_pow_right (by decide) (by omega))
    refine ⟨⟨(longLoop (cd.val - ca.val + 1) a (shl128 d ⟨cd.val - ca.val, by omega⟩) 0).1, 0⟩,
      (longLoop (cd.val - ca.val + 1) a (shl128 d ⟨cd.val - ca.val, by omega⟩) 0).2, ?_, ?_, h.2⟩
    · simp [divmodLong, hc, ed, ea, bind, Except.bind]
    · simpa [Value.toNat] using h.1

/-- For every nonzero divisor the unit divides: quotient and remainder of the numbers (R100). -/
theorem divmod128_spec {a d : Value} (hd : d.toNat ≠ 0) :
    ∃ q r : Value, divmod128 a d = .ok (q, r) ∧ q.toNat = a.toNat / d.toNat ∧ r.toNat = a.toNat % d.toNat := by
  unfold divmod128
  split
  · next h => exact divmodSmall_spec h hd
  · next h => exact divmodLong_spec h

/-- Division by the zero Value raises DIV_ZERO, whatever the dividend (R103). -/
theorem divmod128_zero {a d : Value} (hd : d.toNat = 0) : divmod128 a d = .error .divZero := by
  obtain ⟨hl, hh⟩ := (Value.eq_zero_iff d).mp hd
  simp [divmod128, divmodSmall, hl, hh]

theorem divmod128_error {a d : Value} {c : Cause} (h : divmod128 a d = .error c) : c = .divZero := by
  by_cases hd : d.toNat = 0
  · rw [divmod128_zero hd] at h
    exact (Except.error.inj h).symm
  · obtain ⟨q, r, e, -⟩ := divmod128_spec (a := a) hd
    rw [e] at h
    cases h

end Sys2Proof.Machine
end

