-- ==== Sys2Proof/Laws/Float.lean ====
section
/-! SUPPORT. Floating point: what the construction from a pattern computes, what rounding picks, and what pattern a
number gets. -/

namespace Sys2Proof.Machine

/-! The field split. -/

theorem fsplit32_exp (u : BitVec 32) : (fsplit32 u).exp = u.toNat / 2 ^ 23 % 2 ^ 8 := by
  simp [fsplit32, BitVec.extractLsb'_toNat, Nat.shiftRight_eq_div_pow]

theorem fsplit32_man (u : BitVec 32) : (fsplit32 u).man.toNat = u.toNat % 2 ^ 23 := by
  simp [fsplit32, BitVec.extractLsb'_toNat]
  omega

theorem fsplit64_exp (u : BitVec 64) : (fsplit64 u).exp = u.toNat / 2 ^ 52 % 2 ^ 11 := by
  simp [fsplit64, BitVec.extractLsb'_toNat, Nat.shiftRight_eq_div_pow]

theorem fsplit64_man (u : BitVec 64) : (fsplit64 u).man.toNat = u.toNat % 2 ^ 52 := by
  simp [fsplit64, BitVec.extractLsb'_toNat]
  omega

/-! Construction (R81). -/

/-- Negation modulo 2^128 (R80). -/
theorem neg128_toNat (x : Value) : (neg128 x).toNat = (2 ^ 128 - x.toNat) % 2 ^ 128 := by
  have h := x.toNat_lt
  rw [neg128, add128_toNat, not128_toNat]
  have : (Value.mk 1 0).toNat = 1 := rfl
  omega

/-- The mantissa with the implicit leading one (R81). -/
theorem implicit_one_toNat {mw : Fin 64} {man : Word} (h : man.toNat < 2 ^ mw.val) :
    (wordShl 1 mw ||| man).toNat = 2 ^ mw.val + man.toNat := by
  have h1 : (wordShl 1 mw).toNat = 2 ^ mw.val := by
    rw [wordShl_toNat, show (1 : Word).toNat = 1 from rfl, Nat.one_mul]
    exact Nat.mod_eq_of_lt (Nat.pow_lt_pow_right (by decide) mw.isLt)
  rw [or_toNat_of_split h (by rw [h1]; exact Nat.mod_self _), h1]

/-- `m · 2^x / 2^y` is a left shift when `y ≤ x` and a right shift when `x ≤ y`. -/
theorem scale_left (m : Nat) {x y : Nat} (h : y ≤ x) : m * 2 ^ x / 2 ^ y = m * 2 ^ (x - y) := by
  have e : (2 : Nat) ^ x = 2 ^ (x - y) * 2 ^ y := by rw [← Nat.pow_add]; congr 1; omega
  rw [e, ← Nat.mul_assoc, Nat.mul_div_cancel _ (Nat.two_pow_pos y)]

theorem scale_right (m : Nat) {x y : Nat} (h : x ≤ y) : m * 2 ^ x / 2 ^ y = m / 2 ^ (y - x) := by
  have e : (2 : Nat) ^ y = 2 ^ (y - x) * 2 ^ x := by rw [← Nat.pow_add]; congr 1; omega
  rw [e, Nat.mul_div_mul_right _ _ (Nat.two_pow_pos x)]

/-- The magnitude's shift multiplies by 2^(exp − bias − MW) and truncates toward zero, modulo 2^128 (R81 a). -/
theorem fpShift_spec {F : FpFormat} {exp : Nat} {mag : Value} (hm : mag.toNat < 2 ^ (F.mw.val + 1))
    (hexp : exp < F.bias + F.mw.val + 128) :
    ∃ v, fpShift F ((exp : Int) - F.bias) mag = .ok v ∧
      v.toNat = mag.toNat * 2 ^ exp / 2 ^ (F.bias + F.mw.val) % 2 ^ 128 := by
  have hlt := mag.toNat_lt
  unfold fpShift
  split
  · next h =>
    have hs : ((exp : Int) - F.bias - F.mw.val).toNat = exp - (F.bias + F.mw.val) := by omega
    have hs' : ((exp : Int) - F.bias - F.mw.val).toNat < 128 := by omega
    refine ⟨_, dif_pos hs', ?_⟩
    rw [shl128_toNat]
    dsimp only
    rw [hs, scale_left _ (by omega)]
  · next h =>
    split
    · next h2 =>
      have hs : ((F.mw.val : Int) - ((exp : Int) - F.bias)).toNat = F.bias + F.mw.val - exp := by omega
      rw [scale_right _ (by omega : exp ≤ F.bias + F.mw.val)]
      by_cases h3 : ((F.mw.val : Int) - ((exp : Int) - F.bias)).toNat > F.mw.val
      · refine ⟨_, dif_pos h3, ?_⟩
        have : mag.toNat < 2 ^ (F.bias + F.mw.val - exp) :=
          Nat.lt_of_lt_of_le hm (Nat.pow_le_pow_right (by decide) (by omega))
        rw [Nat.div_eq_of_lt this]
        rfl
      · refine ⟨_, dif_neg h3, ?_⟩
        rw [shr128_toNat]
        dsimp only
        rw [hs]
        exact (Nat.mod_eq_of_lt (Nat.lt_of_le_of_lt (Nat.div_le_self _ _) hlt)).symm
    · next h2 =>
      have : exp = F.bias + F.mw.val := by omega
      refine ⟨_, rfl, ?_⟩
      rw [this, Nat.mul_div_cancel _ (Nat.two_pow_pos _), Nat.mod_eq_of_lt hlt]

theorem fpShift_range {F : FpFormat} {exp : Nat} {mag : Value} (hexp : F.bias + F.mw.val + 128 ≤ exp) :
    fpShift F ((exp : Int) - F.bias) mag = .error .shiftRange := by
  unfold fpShift
  rw [if_pos (by omega), dif_neg (by omega)]

theorem fpShift_error {F : FpFormat} {e : Int} {mag : Value} {c : Cause} (h : fpShift F e mag = .error c) :
    c = .shiftRange := by
  unfold fpShift at h
  split at h
  · dsimp only at h
    split at h <;> simp_all
  · split at h
    · dsimp only at h
      split at h <;> simp_all
    · simp_all

/-- A finite pattern becomes `floor(|v|) mod 2^128`, negated modulo 2^128 under a sign (R81). -/
theorem fpToU128_spec {F : FpFormat} {f : FpFields} (hman : f.man.toNat < 2 ^ F.mw.val) (hfin : f.exp ≠ F.expMax)
    (hexp : f.exp < F.bias + F.mw.val + 128) :
    ∃ v, fpToU128 F f = .ok v ∧
      v.toNat = (if f.sign
        then (2 ^ 128 - (2 ^ F.mw.val + f.man.toNat) * 2 ^ f.exp / 2 ^ (F.bias + F.mw.val) % 2 ^ 128) % 2 ^ 128
        else (2 ^ F.mw.val + f.man.toNat) * 2 ^ f.exp / 2 ^ (F.bias + F.mw.val) % 2 ^ 128) := by
  have hmag : (Value.mk (wordShl 1 F.mw ||| f.man) 0).toNat = 2 ^ F.mw.val + f.man.toNat := by
    rw [Value.toNat_mk, implicit_one_toNat hman]
    simp
  obtain ⟨v, e, hv⟩ := fpShift_spec (F := F) (exp := f.exp) (mag := ⟨wordShl 1 F.mw ||| f.man, 0⟩)
    (by rw [hmag, Nat.pow_succ]; omega) hexp
  rw [hmag] at hv
  refine ⟨if f.sign then neg128 v else v, by rw [fpToU128, if_neg hfin, e]; rfl, ?_⟩
  split
  · rw [neg128_toNat, hv]
  · exact hv

theorem fpToU128_nonfinite {F : FpFormat} {f : FpFields} (h : f.exp = F.expMax) :
    fpToU128 F f = .error .fpNonfinite := by
  rw [fpToU128, if_pos h]

theorem fpToU128_range {F : FpFormat} {f : FpFields} (hfin : f.exp ≠ F.expMax)
    (hexp : F.bias + F.mw.val + 128 ≤ f.exp) : fpToU128 F f = .error .shiftRange := by
  rw [fpToU128, if_neg hfin, fpShift_range hexp]
  rfl

theorem fpToU128_error {F : FpFormat} {f : FpFields} {c : Cause} (h : fpToU128 F f = .error c) :
    c = .fpNonfinite ∨ c = .shiftRange := by
  unfold fpToU128 at h
  split at h
  · simp_all
  · cases e : fpShift F ((f.exp : Int) - F.bias) ⟨wordShl 1 F.mw ||| f.man, 0⟩ with
    | ok v => rw [e] at h; cases h
    | error c' =>
      rw [e] at h
      cases h
      exact .inr (fpShift_error e)

/-! Rounding (R131). -/

theorem dropBits_le_of_representable {F : FpFormat} {m k w : Nat} (hm : m < 2 ^ (F.mw.val + 1)) (hw : w = m * 2 ^ k) :
    dropBits F w ≤ k := by
  unfold dropBits
  by_cases h0 : w = 0
  · simp [h0]
  · have : w < 2 ^ (F.mw.val + 1 + k) := by
      rw [hw, Nat.pow_add]
      exact (Nat.mul_lt_mul_right (Nat.two_pow_pos k)).mpr hm
    have := (Nat.log2_lt h0).mpr this
    omega

/-- A representable number is itself, whatever FP_ROUND is (R131, R132). -/
theorem roundTo_of_representable (rnd : FpRound) {F : FpFormat} {w : Nat} (h : Representable (F.mw.val + 1) w)
    (hle : exceeds F w = false) : roundTo rnd F w = .finite w := by
  obtain ⟨m, k, hm, hw⟩ := h
  have hk := dropBits_le_of_representable hm hw
  have hdvd : 2 ^ dropBits F w ∣ w := by
    conv_rhs => rw [hw]
    exact Nat.dvd_mul_left_of_dvd (Nat.pow_dvd_pow 2 hk) m
  have hmod : w % 2 ^ dropBits F w = 0 := Nat.mod_eq_zero_of_dvd hdvd
  simp [roundTo, hmod, Nat.div_mul_cancel hdvd, hle]

/-- No representable number lies strictly between `q·2^b` and `(q+1)·2^b` when `q` fills the significand. -/
theorem representable_gap {p q b u : Nat} (hq : 2 ^ (p - 1) ≤ q) (hp : 1 ≤ p) (hu : Representable p u)
    (hlt : q * 2 ^ b < u) : (q + 1) * 2 ^ b ≤ u := by
  obtain ⟨m, k, hm, rfl⟩ := hu
  have hbk : b ≤ k := by
    by_contra hc
    have h1 : 2 ^ (p - 1) * 2 ^ b < 2 ^ p * 2 ^ k := calc
      2 ^ (p - 1) * 2 ^ b ≤ q * 2 ^ b := Nat.mul_le_mul_right _ hq
      _ < m * 2 ^ k := hlt
      _ ≤ 2 ^ p * 2 ^ k := Nat.mul_le_mul_right _ (Nat.le_of_lt hm)
    rw [← Nat.pow_add, ← Nat.pow_add] at h1
    have := (Nat.pow_lt_pow_iff_right (by decide : 1 < 2)).mp h1
    omega
  have e : m * 2 ^ k = m * 2 ^ (k - b) * 2 ^ b := by
    rw [Nat.mul_assoc, ← Nat.pow_add]
    congr 2
    omega
  rw [e] at hlt ⊢
  exact Nat.mul_le_mul_right _ (Nat.lt_of_mul_lt_mul_right hlt)

/-- The largest finite number of a format: all ones in the significand, the exponent below `EXP_MAX` (R67, R68). -/
def maxFinite (F : FpFormat) : Nat := (2 ^ (F.mw.val + 1) - 1) * 2 ^ (F.expMax - 1 - F.bias - F.mw.val)

/-- The overflow test is R131's: "exceeds the largest finite F number". -/
theorem exceeds_iff {F : FpFormat} (hF : F.bias + F.mw.val + 1 ≤ F.expMax) {v : Nat}
    (h : Representable (F.mw.val + 1) v) : exceeds F v = true ↔ maxFinite F < v := by
  have hpow : (2 ^ (F.mw.val + 1) - 1 + 1) * 2 ^ (F.expMax - 1 - F.bias - F.mw.val) = 2 ^ (F.expMax - F.bias) := by
    rw [Nat.sub_add_cancel (Nat.two_pow_pos _), ← Nat.pow_add]
    congr 1
    omega
  by_cases h0 : v = 0
  · simp only [exceeds, h0, Nat.log2_zero, decide_eq_true_eq]
    omega
  constructor
  · intro he
    have : F.expMax - F.bias ≤ v.log2 := by simp only [exceeds, decide_eq_true_eq] at he; omega
    calc maxFinite F < 2 ^ (F.expMax - F.bias) := by
          rw [← hpow, maxFinite, Nat.add_mul]
          exact Nat.lt_add_of_pos_right (by simp)
      _ ≤ 2 ^ v.log2 := Nat.pow_le_pow_right (by decide) this
      _ ≤ v := Nat.log2_self_le h0
  · intro hlt
    have hq : 2 ^ (F.mw.val + 1 - 1) ≤ 2 ^ (F.mw.val + 1) - 1 := by
      have := Nat.two_pow_pos F.mw.val
      rw [Nat.pow_succ, Nat.add_sub_cancel]
      omega
    have := representable_gap hq (by omega) h hlt
    rw [hpow] at this
    have := (Nat.le_log2 h0).mpr this
    simp only [exceeds, decide_eq_true_eq]
    omega

/-- Under ties-to-even, rounding picks the nearest representable number (R131, G2), and +infinity exactly when that
number exceeds the largest finite one. -/
theorem roundTo_nearestEven {F : FpFormat} (hmw : 1 ≤ F.mw.val) (v : Nat) :
    ∃ w, NearestEven (F.mw.val + 1) v w ∧
      roundTo nearestEven F v = if exceeds F w then .infinity else .finite w := by
  by_cases hb : dropBits F v = 0
  · refine ⟨v, ⟨?_, ?_, ?_⟩, by simp [roundTo, hb, Nat.mod_one]⟩
    · refine ⟨v, 0, ?_, by simp⟩
      by_cases h0 : v = 0
      · rw [h0]; exact Nat.two_pow_pos _
      · exact (Nat.log2_lt h0).mp (by unfold dropBits at hb; omega)
    · intro u _
      simp [absDiff]
    · intro u _ hne hd
      exact absurd hd (by unfold absDiff; omega)
  · have h0 : v ≠ 0 := by rintro rfl; simp [dropBits] at hb
    obtain ⟨b, hbd⟩ : ∃ b, dropBits F v = b := ⟨_, rfl⟩
    have hlog : v.log2 = F.mw.val + b := by unfold dropBits at hbd hb; omega
    have hb1 : 1 ≤ b := by omega
    have hlo : 2 ^ F.mw.val * 2 ^ b ≤ v := by
      rw [← Nat.pow_add, ← hlog]
      exact Nat.log2_self_le h0
    have hhi : v < 2 ^ (F.mw.val + 1) * 2 ^ b := by
      rw [← Nat.pow_add]
      have := @Nat.lt_log2_self v
      rwa [hlog, Nat.add_right_comm] at this
    have hpos : 0 < 2 ^ b := Nat.two_pow_pos b
    have hkept1 : 2 ^ F.mw.val ≤ v / 2 ^ b := (Nat.le_div_iff_mul_le hpos).mpr hlo
    have hkept2 : v / 2 ^ b < 2 ^ (F.mw.val + 1) := Nat.div_lt_of_lt_mul (by rwa [Nat.mul_comm])
    have hsplit : v / 2 ^ b * 2 ^ b + v % 2 ^ b = v := by rw [Nat.mul_comm]; exact Nat.div_add_mod v (2 ^ b)
    have hr : v % 2 ^ b < 2 ^ b := Nat.mod_lt _ hpos
    have hsucc : (v / 2 ^ b + 1) * 2 ^ b = v / 2 ^ b * 2 ^ b + 2 ^ b := by ring
    have hgap : ∀ u, Representable (F.mw.val + 1) u →
        u ≤ v / 2 ^ b * 2 ^ b ∨ v / 2 ^ b * 2 ^ b + 2 ^ b ≤ u := by
      intro u hu
      by_cases hle : u ≤ v / 2 ^ b * 2 ^ b
      · exact .inl hle
      · rw [← hsucc]
        exact .inr (representable_gap (by simpa using hkept1) (by omega) hu (Nat.not_le.mp hle))
    have hround : roundTo nearestEven F v =
        if exceeds F ((if v % 2 ^ b ≠ 0 ∧ nearestEven (v / 2 ^ b) (v % 2 ^ b) b then v / 2 ^ b + 1
          else v / 2 ^ b) * 2 ^ b)
        then .infinity
        else .finite ((if v % 2 ^ b ≠ 0 ∧ nearestEven (v / 2 ^ b) (v % 2 ^ b) b then v / 2 ^ b + 1
          else v / 2 ^ b) * 2 ^ b) := by
      simp only [roundTo, hbd]
    refine ⟨_, ⟨?_, ?_, ?_⟩, hround⟩
    all_goals
      simp only [nearestEven, Bool.or_eq_true, decide_eq_true_eq, Bool.and_eq_true, beq_iff_eq]
      split
    · by_cases hc : v / 2 ^ b + 1 < 2 ^ (F.mw.val + 1)
      · exact ⟨_, b, hc, rfl⟩
      · have he : v / 2 ^ b + 1 = 2 ^ F.mw.val * 2 := by rw [← Nat.pow_succ]; omega
        exact ⟨2 ^ F.mw.val, b + 1, Nat.pow_lt_pow_right (by decide) (by omega), by rw [he, Nat.pow_succ]; ring⟩
    · exact ⟨_, b, hkept2, rfl⟩
    · next hup =>
      intro u hu
      rw [hsucc]
      rcases hgap u hu with h | h <;> (unfold absDiff; omega)
    · next hdown =>
      intro u hu
      rcases hgap u hu with h | h <;> (unfold absDiff; omega)
    · next hup =>
      intro u hu hne hd
      rw [hsucc] at hne hd
      have hodd : v / 2 ^ b % 2 = 1 := by
        rcases hgap u hu with h | h <;> (unfold absDiff at hd; omega)
      by_cases hc : v / 2 ^ b + 1 < 2 ^ (F.mw.val + 1)
      · exact ⟨_, b, by simp only [Nat.add_sub_cancel]; omega, hc, by omega, rfl⟩
      · have he : v / 2 ^ b + 1 = 2 ^ F.mw.val * 2 := by rw [← Nat.pow_succ]; omega
        refine ⟨2 ^ F.mw.val, b + 1, by simp, Nat.pow_lt_pow_right (by decide) (by omega), ?_,
          by rw [he, Nat.pow_succ]; ring⟩
        obtain ⟨n, hn⟩ : ∃ n, F.mw.val = n + 1 := ⟨F.mw.val - 1, by omega⟩
        rw [hn, Nat.pow_succ]
        omega
    · next hdown =>
      intro u hu hne hd
      have heven : v / 2 ^ b % 2 = 0 := by
        rcases hgap u hu with h | h <;> (unfold absDiff at hd; omega)
      exact ⟨_, b, by simpa using hkept1, hkept2, heven, rfl⟩

/-! The pattern of a number (R132, R69). -/

/-- A nonzero representable number is `1.man · 2^(exp − BIAS)` with the fields it gets. -/
theorem fpFields_spec {F : FpFormat} {w : Nat} (h0 : w ≠ 0) (h : Representable (F.mw.val + 1) w) :
    (fpFields F (.finite w)).sign = false ∧ (fpFields F (.finite w)).exp = w.log2 + F.bias ∧
    (fpFields F (.finite w)).man.toNat < 2 ^ F.mw.val ∧
    (2 ^ F.mw.val + (fpFields F (.finite w)).man.toNat) * 2 ^ w.log2 = w * 2 ^ F.mw.val := by
  have e : fpFields F (.finite w) =
      ⟨false, w.log2 + F.bias, BitVec.ofNat 64 (w * 2 ^ F.mw.val / 2 ^ w.log2 - 2 ^ F.mw.val)⟩ := by
    rw [fpFields, if_neg h0]
  obtain ⟨m, k, hm, hw⟩ := h
  have hlog : w.log2 ≤ k + F.mw.val := by
    have : w < 2 ^ (k + F.mw.val + 1) := by
      rw [hw, Nat.add_assoc, Nat.add_comm, Nat.pow_add]
      exact (Nat.mul_lt_mul_right (Nat.two_pow_pos k)).mpr hm
    have := (Nat.log2_lt h0).mpr this
    omega
  have hdvd : 2 ^ w.log2 ∣ w * 2 ^ F.mw.val := by
    conv_rhs => rw [hw, Nat.mul_assoc, ← Nat.pow_add]
    exact Nat.dvd_mul_left_of_dvd (Nat.pow_dvd_pow 2 hlog) m
  have hq := Nat.div_mul_cancel hdvd
  have h1 : 2 ^ F.mw.val ≤ w * 2 ^ F.mw.val / 2 ^ w.log2 := by
    apply (Nat.le_div_iff_mul_le (Nat.two_pow_pos _)).mpr
    rw [Nat.mul_comm]
    exact Nat.mul_le_mul_right _ (Nat.log2_self_le h0)
  have h2 : w * 2 ^ F.mw.val / 2 ^ w.log2 < 2 ^ F.mw.val * 2 := by
    apply Nat.div_lt_of_lt_mul
    have := @Nat.lt_log2_self w
    rw [Nat.pow_succ] at this
    calc w * 2 ^ F.mw.val < 2 ^ w.log2 * 2 * 2 ^ F.mw.val := (Nat.mul_lt_mul_right (Nat.two_pow_pos _)).mpr this
      _ = 2 ^ w.log2 * (2 ^ F.mw.val * 2) := by ring
  have hfit : (2 : Nat) ^ F.mw.val < 2 ^ 64 := Nat.pow_lt_pow_right (by decide) F.mw.isLt
  have hman : (fpFields F (.finite w)).man.toNat = w * 2 ^ F.mw.val / 2 ^ w.log2 - 2 ^ F.mw.val := by
    rw [e, BitVec.toNat_ofNat]
    exact Nat.mod_eq_of_lt (by omega)
  refine ⟨by rw [e], by rw [e], by rw [hman]; omega, ?_⟩
  rw [hman, Nat.add_sub_cancel' h1, hq]

theorem fjoin32_toNat {f : FpFields} (hs : f.sign = false) (he : f.exp < 2 ^ 8) (hm : f.man.toNat < 2 ^ 23) :
    (fjoin32 f).toNat = f.exp * 2 ^ 23 + f.man.toNat := by
  have h1 : (f.man.setWidth 23).toNat = f.man.toNat := by
    rw [BitVec.toNat_setWidth]
    exact Nat.mod_eq_of_lt hm
  simp only [fjoin32, hs, BitVec.toNat_append, BitVec.toNat_ofNat, h1, Nat.mod_eq_of_lt he]
  rw [← Nat.shiftLeft_add_eq_or_of_lt hm, Nat.shiftLeft_eq f.exp]
  simp

theorem fjoin64_toNat {f : FpFields} (hs : f.sign = false) (he : f.exp < 2 ^ 11) (hm : f.man.toNat < 2 ^ 52) :
    (fjoin64 f).toNat = f.exp * 2 ^ 52 + f.man.toNat := by
  have h1 : (f.man.setWidth 52).toNat = f.man.toNat := by
    rw [BitVec.toNat_setWidth]
    exact Nat.mod_eq_of_lt hm
  simp only [fjoin64, hs, BitVec.toNat_append, BitVec.toNat_ofNat, h1, Nat.mod_eq_of_lt he]
  rw [← Nat.shiftLeft_add_eq_or_of_lt hm, Nat.shiftLeft_eq f.exp]
  simp

end Sys2Proof.Machine
end

