-- ==== Sys2Proof/Laws/State.lean ====
section
/-! SUPPORT. Each update of the state, field by field, so that no later proof unfolds a record update. -/

namespace Sys2Proof.Machine.State

@[simp] theorem complete_r (s : State) (v : Value) : (s.complete v).r = v := rfl
@[simp] theorem complete_fault (s : State) (v : Value) : (s.complete v).fault = s.fault := rfl
@[simp] theorem complete_cause (s : State) (v : Value) : (s.complete v).cause = s.cause := rfl
@[simp] theorem complete_done (s : State) (v : Value) : (s.complete v).done = true := rfl
@[simp] theorem complete_inp (s : State) (v : Value) : (s.complete v).inp = s.inp := rfl
@[simp] theorem complete_host (s : State) (v : Value) : (s.complete v).host = s.host := rfl

@[simp] theorem raise_r (s : State) (c : Cause) : (s.raise c).r = s.r := rfl
@[simp] theorem raise_fault (s : State) (c : Cause) : (s.raise c).fault = true := rfl
@[simp] theorem raise_cause (s : State) (c : Cause) : (s.raise c).cause = c := rfl
@[simp] theorem raise_done (s : State) (c : Cause) : (s.raise c).done = true := rfl
@[simp] theorem raise_inp (s : State) (c : Cause) : (s.raise c).inp = s.inp := rfl
@[simp] theorem raise_host (s : State) (c : Cause) : (s.raise c).host = s.host := rfl

@[simp] theorem hold_r (s : State) : s.hold.r = s.r := rfl
@[simp] theorem hold_fault (s : State) : s.hold.fault = s.fault := rfl
@[simp] theorem hold_cause (s : State) : s.hold.cause = s.cause := rfl
@[simp] theorem hold_done (s : State) : s.hold.done = false := rfl
@[simp] theorem hold_inp (s : State) : s.hold.inp = s.inp := rfl
@[simp] theorem hold_host (s : State) : s.hold.host = s.host := rfl

@[simp] theorem applyReset_r (s : State) : s.applyReset.r = ⟨0, 0⟩ := rfl
@[simp] theorem applyReset_fault (s : State) : s.applyReset.fault = false := rfl
@[simp] theorem applyReset_cause (s : State) : s.applyReset.cause = .none := rfl
@[simp] theorem applyReset_done (s : State) : s.applyReset.done = false := rfl
@[simp] theorem applyReset_inp (s : State) : s.applyReset.inp = s.inp := rfl
@[simp] theorem applyReset_host (s : State) : s.applyReset.host = s.host := rfl

@[simp] theorem present_r (s : State) (cw : ControlWord) : (s.present cw).r = s.r := rfl
@[simp] theorem present_fault (s : State) (cw : ControlWord) : (s.present cw).fault = s.fault := rfl
@[simp] theorem present_cause (s : State) (cw : ControlWord) : (s.present cw).cause = s.cause := rfl
@[simp] theorem present_done (s : State) (cw : ControlWord) : (s.present cw).done = s.done := rfl
@[simp] theorem present_host (s : State) (cw : ControlWord) : (s.present cw).host = s.host := rfl
@[simp] theorem present_inp_rst (s : State) (cw : ControlWord) : (s.present cw).inp.rst = false := rfl
@[simp] theorem present_inp_cmdValid (s : State) (cw : ControlWord) : (s.present cw).inp.cmdValid = true := rfl
@[simp] theorem present_inp_cw (s : State) (cw : ControlWord) : (s.present cw).inp.cw = cw := rfl
@[simp] theorem present_inp_a (s : State) (cw : ControlWord) : (s.present cw).inp.a = s.inp.a := rfl
@[simp] theorem present_inp_b (s : State) (cw : ControlWord) : (s.present cw).inp.b = s.inp.b := rfl

@[simp] theorem advance_r (s : State) : s.advance.r = s.r := by
  unfold advance
  split <;> rfl

@[simp] theorem advance_fault (s : State) : s.advance.fault = s.fault := by
  unfold advance
  split <;> rfl

@[simp] theorem advance_cause (s : State) : s.advance.cause = s.cause := by
  unfold advance
  split <;> rfl

@[simp] theorem advance_done (s : State) : s.advance.done = s.done := by
  unfold advance
  split <;> rfl

@[simp] theorem advance_inp (s : State) : s.advance.inp = s.host.headD .idle := by
  unfold advance
  split <;> simp_all

@[simp] theorem advance_host (s : State) : s.advance.host = s.host.tail := by
  unfold advance
  split <;> simp_all

@[simp] theorem left_portA (s : State) : s.left .portA = s.inp.a := rfl
@[simp] theorem left_regR (s : State) : s.left .regR = s.r := rfl
@[simp] theorem right_eq (s : State) : s.right = s.inp.b := rfl

end Sys2Proof.Machine.State
end

