-- ==== Sys2Proof/Laws/Ops.lean ====
section
/-! SUPPORT. What the shared operations can do, once each: how a command ends, what the ports do, what a step does. -/

namespace Sys2Proof.Machine

open Host (Outcome)

@[simp] theorem State.finish_ok (s : State) (v : Value) : s.finish (.ok v) = .next (s.complete v) := rfl

@[simp] theorem State.finish_error (s : State) (c : Cause) : s.finish (.error c) = .next (s.raise c) := rfl

/-- A command completes or faults, and there is no third outcome (R159). -/
theorem State.finish_cases (s : State) (result : Except Cause Value) :
    (∃ v, result = .ok v ∧ s.finish result = .next (s.complete v)) ∨
    (∃ c, result = .error c ∧ s.finish result = .next (s.raise c)) := by
  cases result with
  | ok v => exact .inl ⟨v, rfl, rfl⟩
  | error c => exact .inr ⟨c, rfl, rfl⟩

@[simp] theorem advanceOutcome_next (t : State) : advanceOutcome (.next t) = .next t.advance := rfl

/-- A command is accepted exactly in an unfaulted unit, out of reset, with `cmd_valid` = 1 (R20). -/
theorem State.accepted_eq_some (s : State) (cw : ControlWord) :
    s.accepted = some cw ↔ s.inp.rst = false ∧ s.inp.cmdValid = true ∧ s.fault = false ∧ s.inp.cw = cw := by
  unfold State.accepted State.cmdReady
  cases s.inp.rst <;> cases s.inp.cmdValid <;> cases s.fault <;> simp

theorem State.accepted_eq_none (s : State) :
    s.accepted = none ↔ s.inp.rst = true ∨ s.inp.cmdValid = false ∨ s.fault = true := by
  unfold State.accepted State.cmdReady
  cases s.inp.rst <;> cases s.inp.cmdValid <;> cases s.fault <;> simp

theorem cause_code_injective (c d : Cause) (h : c.code = d.code) : c = d := by
  cases c <;> cases d <;> first | rfl | exact absurd h (by decide)

end Sys2Proof.Machine
end

