-- ==== Sys2Proof/Laws/Exec.lean ====
section
/-! SUPPORT. What an instruction can do and what a step can do, once, so that no invariant unfolds either again. -/

namespace Sys2Proof.Machine

open Host (Outcome)

theorem map_error {α : Type} {e : Except Cause α} {f : α → Value} {c : Cause} (h : e.map f = .error c) :
    e = .error c := by
  cases e with
  | ok a => cases h
  | error c' => cases h; rfl

theorem shiftAmount_error {b : Value} {c : Cause} (h : shiftAmount b = .error c) : c = .shiftRange := by
  unfold shiftAmount at h
  split at h <;> simp_all

theorem State.finish_ok_ends (s : State) (v : Value) :
    (∃ v', s.finish (.ok v) = .next (s.complete v')) ∨ ∃ c, c ≠ .none ∧ s.finish (.ok v) = .next (s.raise c) :=
  .inl ⟨v, rfl⟩

/-- A result whose causes are never NONE ends the command properly. -/
theorem State.finish_ends (s : State) {e : Except Cause Value} (h : ∀ c, e = .error c → c ≠ .none) :
    (∃ v, s.finish e = .next (s.complete v)) ∨ ∃ c, c ≠ .none ∧ s.finish e = .next (s.raise c) := by
  cases e with
  | ok v => exact .inl ⟨v, rfl⟩
  | error c => exact .inr ⟨c, h c rfl, rfl⟩

/-- Every instruction, in every state, completes or raises a fault with a cause that is not NONE. -/
theorem exec_cases (i : Instr) (s : State) :
    (∃ v, exec i s = .next (s.complete v)) ∨ ∃ c, c ≠ .none ∧ exec i s = .next (s.raise c) := by
  cases i
  case divw x =>
    refine s.finish_ends fun c h => ?_
    rcases divw_error (map_error h) with rfl | rfl <;> decide
  case clz x =>
    refine s.finish_ends fun c h => ?_
    rw [clz64_error (map_error h)]
    decide
  case cvtf32 x =>
    refine s.finish_ends fun c h => ?_
    rcases fpToU128_error h with rfl | rfl <;> decide
  case cvtf64 x =>
    refine s.finish_ends fun c h => ?_
    rcases fpToU128_error h with rfl | rfl <;> decide
  case div x =>
    refine s.finish_ends fun c h => ?_
    rw [divmod128_error (map_error h)]
    decide
  case mod x =>
    refine s.finish_ends fun c h => ?_
    rw [divmod128_error (map_error h)]
    decide
  case shl x =>
    refine s.finish_ends fun c h => ?_
    rw [shiftAmount_error (map_error h)]
    decide
  case shr x =>
    refine s.finish_ends fun c h => ?_
    rw [shiftAmount_error (map_error h)]
    decide
  all_goals exact s.finish_ok_ends _

/-- A step resets, holds, completes a command, or raises a fault; the ports move on in every case. -/
theorem step_cases (s : State) :
    (s.inp.rst = true ∧ step s = .next s.applyReset.advance) ∨
    (s.inp.rst = false ∧ (s.inp.cmdValid = false ∨ s.fault = true) ∧ step s = .next s.hold.advance) ∨
    (s.inp.rst = false ∧ s.inp.cmdValid = true ∧ s.fault = false ∧
      ((∃ v, step s = .next (s.complete v).advance) ∨ ∃ c, c ≠ .none ∧ step s = .next (s.raise c).advance)) := by
  unfold step
  cases hr : s.inp.rst with
  | true => exact .inl ⟨rfl, by simp⟩
  | false =>
    refine .inr ?_
    cases ha : s.accepted with
    | none =>
      have := (State.accepted_eq_none s).mp ha
      rw [hr] at this
      exact .inl ⟨rfl, by simpa using this, by simp⟩
    | some cw =>
      obtain ⟨-, hv, hf, -⟩ := (State.accepted_eq_some s cw).mp ha
      refine .inr ⟨rfl, hv, hf, ?_⟩
      cases hd : decode cw with
      | none => exact .inr ⟨.illegalCmd, by decide, by simp [hd]⟩
      | some i =>
        rcases exec_cases i s with ⟨v, e⟩ | ⟨c, hc, e⟩
        · exact .inl ⟨v, by simp [hd, e]⟩
        · exact .inr ⟨c, hc, by simp [hd, e]⟩

end Sys2Proof.Machine
end

