-- ==== Sys2Proof/Laws/PerInstr.lean ====
section
/-! SUPPORT. Statements about every instruction as syntax, one lemma per constructor (LAWS.json). -/

namespace Sys2Proof.Laws.DecodeEncode

/-- Decoding the control word of an instruction gives the instruction, with its left operand (R41, R42). -/
def Statement (i : Instr) : Prop := decode (encode i) = some i

theorem mulw (x : Left) : Statement (.mulw x) := by cases x <;> rfl
theorem divw (x : Left) : Statement (.divw x) := by cases x <;> rfl
theorem clz (x : Left) : Statement (.clz x) := by cases x <;> rfl
theorem zero : Statement .zero := rfl
theorem set (x : Left) : Statement (.set x) := by cases x <;> rfl
theorem cvtb (x : Left) : Statement (.cvtb x) := by cases x <;> rfl
theorem cvtu8 (x : Left) : Statement (.cvtu8 x) := by cases x <;> rfl
theorem cvtu16 (x : Left) : Statement (.cvtu16 x) := by cases x <;> rfl
theorem cvtu32 (x : Left) : Statement (.cvtu32 x) := by cases x <;> rfl
theorem cvtu64 (x : Left) : Statement (.cvtu64 x) := by cases x <;> rfl
theorem cvts8 (x : Left) : Statement (.cvts8 x) := by cases x <;> rfl
theorem cvts16 (x : Left) : Statement (.cvts16 x) := by cases x <;> rfl
theorem cvts32 (x : Left) : Statement (.cvts32 x) := by cases x <;> rfl
theorem cvts64 (x : Left) : Statement (.cvts64 x) := by cases x <;> rfl
theorem cvtf32 (x : Left) : Statement (.cvtf32 x) := by cases x <;> rfl
theorem cvtf64 (x : Left) : Statement (.cvtf64 x) := by cases x <;> rfl
theorem add (x : Left) : Statement (.add x) := by cases x <;> rfl
theorem sub (x : Left) : Statement (.sub x) := by cases x <;> rfl
theorem mul (x : Left) : Statement (.mul x) := by cases x <;> rfl
theorem div (x : Left) : Statement (.div x) := by cases x <;> rfl
theorem mod (x : Left) : Statement (.mod x) := by cases x <;> rfl
theorem shl (x : Left) : Statement (.shl x) := by cases x <;> rfl
theorem shr (x : Left) : Statement (.shr x) := by cases x <;> rfl
theorem and (x : Left) : Statement (.and x) := by cases x <;> rfl
theorem or (x : Left) : Statement (.or x) := by cases x <;> rfl
theorem xor (x : Left) : Statement (.xor x) := by cases x <;> rfl
theorem not (x : Left) : Statement (.not x) := by cases x <;> rfl
theorem cmp (x : Left) : Statement (.cmp x) := by cases x <;> rfl
theorem eq (x : Left) : Statement (.eq x) := by cases x <;> rfl
theorem ne (x : Left) : Statement (.ne x) := by cases x <;> rfl
theorem lt (x : Left) : Statement (.lt x) := by cases x <;> rfl
theorem le (x : Left) : Statement (.le x) := by cases x <;> rfl
theorem gt (x : Left) : Statement (.gt x) := by cases x <;> rfl
theorem ge (x : Left) : Statement (.ge x) := by cases x <;> rfl
theorem trunc8 (x : Left) : Statement (.trunc8 x) := by cases x <;> rfl
theorem trunc16 (x : Left) : Statement (.trunc16 x) := by cases x <;> rfl
theorem trunc32 (x : Left) : Statement (.trunc32 x) := by cases x <;> rfl
theorem trunc64 (x : Left) : Statement (.trunc64 x) := by cases x <;> rfl
theorem fcvt32 (x : Left) : Statement (.fcvt32 x) := by cases x <;> rfl
theorem fcvt64 (x : Left) : Statement (.fcvt64 x) := by cases x <;> rfl

end Sys2Proof.Laws.DecodeEncode
end

