-- ==== Sys2Proof/Machine/Assembler.lean ====
section
/-! DEFINITION. The assembler's text (spec/30_encoding.md R50, R51, spec/00_scope.md R8): a line of characters is read
as the lines of abstract syntax it stands for. What the spec leaves open about spaces and hexadecimal letters is
log 18. -/

namespace Sys2Proof.Machine

/-- The digit of a character in a base of at most 16. -/
def digitOf? (base : Nat) (c : Char) : Option Nat :=
  let n := c.toNat
  let d := if 48 ≤ n ∧ n ≤ 57 then n - 48
    else if 65 ≤ n ∧ n ≤ 70 then n - 55
    else if 97 ≤ n ∧ n ≤ 102 then n - 87
    else base
  if d < base then some d else none

/-- The number of a digit string, `acc` the number of the digits before it. -/
def digitsValue? (base : Nat) : List Char → (acc : Nat) → Option Nat
  | [], acc => some acc
  | c :: cs, acc => (digitOf? base c).bind fun d => digitsValue? base cs (acc * base + d)

/-- The number of a non-empty digit string. -/
def number? (base : Nat) (cs : List Char) : Option Nat := if cs = [] then none else digitsValue? base cs 0

/-- A number as a Value, where 128 bits hold it (R50). -/
def valueOfNat? (n : Nat) : Option Value := if n < 2 ^ 128 then some (Value.ofNat n) else none

/-- The pair `0x<hi>:0x<lo>` (R50, 00_scope.md R8), each half a 64-bit number. -/
def pair? (hi lo : List Char) : Option Value :=
  match number? 16 hi, lo with
  | some h, '0' :: 'x' :: cs =>
    (number? 16 cs).bind fun l =>
      if h < 2 ^ 64 ∧ l < 2 ^ 64 then some ⟨BitVec.ofNat 64 l, BitVec.ofNat 64 h⟩ else none
  | _, _ => none

/-- A literal: decimal, hexadecimal, or a word pair, zero-extended to 128 bits (R50). -/
def literal? : List Char → Option Value
  | '0' :: 'x' :: cs =>
    match cs.dropWhile (· ≠ ':') with
    | [] => (number? 16 cs).bind valueOfNat?
    | _ :: lo => pair? (cs.takeWhile (· ≠ ':')) lo
  | cs => (number? 10 cs).bind valueOfNat?

/-- A left operand: `R` or a literal (R50). -/
def asmLeft? : List Char → Option AsmLeft
  | ['R'] => some .reg
  | cs => (literal? cs).map .lit

/-- A space or a tab. -/
def isBlank (c : Char) : Bool := c == ' ' || c == '\t'

/-- A list of characters without the spaces at its ends. -/
def trim (cs : List Char) : List Char := ((cs.dropWhile isBlank).reverse.dropWhile isBlank).reverse

/-- The line's text before a comment (R50: "`;` starts a comment"), without the spaces around it. -/
def withoutComment (cs : List Char) : List Char := trim (cs.takeWhile (· ≠ ';'))

/-- The operands of a line: nothing, a left one, or a left and a right one (R50). -/
def operands? (cs : List Char) : Option (Option AsmLeft × Option Value) :=
  match cs, cs.dropWhile (· ≠ ',') with
  | [], _ => some (none, none)
  | _, [] => (asmLeft? cs).map fun l => (some l, none)
  | _, _ :: right =>
    (asmLeft? (trim (cs.takeWhile (· ≠ ',')))).bind fun l => (literal? (trim right)).map fun r => (some l, some r)

/-- The pseudo-instruction of a name and its operands (R51). -/
def pseudo? (name : List Char) (left : Option AsmLeft) (right : Option Value) : Option Pseudo :=
  match right, left with
  | none, none =>
    if name = ['M', 'I', 'N'] then some .min
    else if name = ['M', 'A', 'X'] then some .max
    else if name = ['I', 'N', 'C'] then some .inc
    else if name = ['D', 'E', 'C'] then some .dec
    else none
  | none, some l =>
    if name = ['N', 'E', 'G'] then some (.neg l)
    else if name = ['M', 'O', 'V'] then
      match l with
      | .lit v => some (.mov v)
      | .reg => none
    else none
  | some _, _ => none

/-- The line of a mnemonic of the opcode table, its width suffix with it, and its operands. `ZERO` takes none. -/
def coreLine? (name : List Char) (left : Option AsmLeft) (right : Option Value) : Option AsmLine :=
  (opTable.find? (·.mnemonic.toList == name)).bind fun row =>
    let instr := row.make ((left.map asmLeftKind).getD .regR)
    let line : AsmLine := ⟨instr, left.bind asmLeftLiteral, right⟩
    if line.wellFormed && (instr.left?.isSome == left.isSome) then some line else none

/-- One line of assembler text as the lines it stands for: none for a blank line or a comment, two for a
pseudo-instruction of two commands. -/
def parseLine (cs : List Char) : Option (List AsmLine) :=
  let text := withoutComment cs
  let name := text.takeWhile (!isBlank ·)
  if text = [] then some []
  else (operands? (trim (text.dropWhile (!isBlank ·)))).bind fun ops =>
    match pseudo? name ops.1 ops.2 with
    | some p => some (expand p)
    | none => (coreLine? name ops.1 ops.2).map fun line => [line]

/-- The commands of one line of text. -/
def assembleText (cs : List Char) : Option (List Command) :=
  (parseLine cs).bind fun lines => lines.mapM assemble

end Sys2Proof.Machine
end

