-- ==== Sys2Proof/Tests/Slice0.lean ====
section
/-! SUPPORT. Tests of one step each. Expected results are the spec's own vectors: spec/95_test_vectors.md (T95) and
spec/96_test_vectors_more.md (T96), by section; the words of the decode tests are written out from spec/30_encoding.md
R41 to R43. After them the smoke tests of well-formedness and a witness for the hypotheses of every statement. -/

namespace Sys2Proof.Tests

open Sys2Proof.Machine Sys2Proof.Claims

/-- A Value in the spec's spelling, high word first. -/
def V (hi lo : Nat) : Value := ⟨BitVec.ofNat 64 lo, BitVec.ofNat 64 hi⟩

/-- The constant `x` of T95. -/
def tx : Value := V 0x0123456789ABCDEF 0xFEDCBA9876543210

/-- `MAX` of T95. -/
def tmax : Value := V 0xFFFFFFFFFFFFFFFF 0xFFFFFFFFFFFFFFFF

/-- The state in which the host presents a command while `R` is `r`. -/
def st (r : Value) (cw : ControlWord) (a b : Value) : State :=
  { State.reset with r := r, inp := ⟨false, true, cw, a, b⟩ }

/-- `R`, `FAULT` and `CAUSE` after that command. -/
def ran (r : Value) (cw : ControlWord) (a b : Value) : Option (Value × Bool × Cause) :=
  match step (st r cw a b) with
  | .next t => some (t.r, t.fault, t.cause)
  | .fault _ => none
  | .refused _ => none

/-- The command completed with this `R`. -/
def ok (hi lo : Nat) : Option (Value × Bool × Cause) := some (V hi lo, false, .none)

/-- The command faulted and `R` is still this. -/
def bad (hi lo : Nat) (c : Cause) : Option (Value × Bool × Cause) := some (V hi lo, true, c)

/-! Primitives, T95 section 2.1. -/

theorem test_mulw_largest : ran (V 0 0) 0x0001 (V 0 0xFFFFFFFFFFFFFFFF) (V 0 0xFFFFFFFFFFFFFFFF) =
    ok 0xFFFFFFFFFFFFFFFE 1 := by decide
theorem test_mulw_ignores_hi : ran (V 0 0) 0x0001 (V 0xDEAD 3) (V 0xBEEF 5) = ok 0 15 := by decide
theorem test_divw_quotient_in_lo : ran (V 0 0) 0x0002 (V 0 100) (V 0 7) = ok 2 14 := by decide
theorem test_divw_zero_before_overflow : ran (V 0 4) 0x0002 (V 9 0) (V 0 0) = bad 0 4 .divZero := by decide
theorem test_clz : ran (V 0 0) 0x0003 (V 0 255) (V 0 0) = ok 0 56 := by decide
theorem test_clz_zero_word : ran (V 0 4) 0x0003 (V 5 0) (V 0 0) = bad 0 4 .clzZero := by decide

/-! Construction, T95 sections 1 (E2) and 2.2, T96 section 2. -/

theorem test_zero : ran (V 1 2) 0x0010 tx tx = ok 0 0 := by decide
theorem test_set : ran (V 0 0) 0x0011 tx (V 0 0) = some (tx, false, .none) := by decide
theorem test_set_r : ran (V 0 5) 0x0411 tx tx = ok 0 5 := by decide
theorem test_cvtb : ran (V 0 0) 0x0012 (V 0 2) (V 0 0) = ok 0 0 := by decide
theorem test_cvtu8 : ran (V 0 0) 0x0013 (V 0 511) (V 0 0) = ok 0 255 := by decide
theorem test_cvtu16 : ran (V 0 0) 0x0113 (V 0 0x12345) (V 0 0) = ok 0 0x2345 := by decide
theorem test_cvtu32 : ran (V 0 0) 0x0213 (V 0 0xFFFFFFFFFFFFFFFF) (V 0 0) = ok 0 0xFFFFFFFF := by decide
theorem test_cvtu64 : ran (V 0 0) 0x0313 (V 0xABCD 0x1234) (V 0 0) = ok 0 0x1234 := by decide
theorem test_cvts8 : ran (V 0 0) 0x0014 (V 0 128) (V 0 0) = ok 0xFFFFFFFFFFFFFFFF 0xFFFFFFFFFFFFFF80 := by decide
theorem test_cvts16_r : ran (V 0 0xFFFE) 0x0514 (V 0 0) (V 0 0) = ok 0xFFFFFFFFFFFFFFFF 0xFFFFFFFFFFFFFFFE := by decide
theorem test_cvts32 : ran (V 0 0) 0x0214 (V 0 0x80000000) (V 0 0) = ok 0xFFFFFFFFFFFFFFFF 0xFFFFFFFF80000000 := by
  decide
theorem test_cvts64 : ran (V 0 0) 0x0314 (V 0xABCD 5) (V 0 0) = ok 0 5 := by decide
theorem test_cvtf32_negative : ran (V 0 0) 0x0015 (V 0 0xC0200000) (V 0 0) =
    ok 0xFFFFFFFFFFFFFFFF 0xFFFFFFFFFFFFFFFE := by decide
theorem test_cvtf32_infinity : ran (V 0 4) 0x0015 (V 0 0x7F800000) (V 0 0) = bad 0 4 .fpNonfinite := by decide
theorem test_cvtf64_shift_127 : ran (V 0 0) 0x0016 (V 0 0x4B2FFFFFFFFFFFFF) (V 0 0) = ok 0x8000000000000000 0 := by
  decide
theorem test_cvtf64_shift_128 : ran (V 0 4) 0x0016 (V 0 0x4B30000000000000) (V 0 0) = bad 0 4 .shiftRange := by decide

/-! Arithmetic, T95 sections 1 (E4) and 2.3. -/

theorem test_add_carry : ran (V 0 0) 0x0020 (V 1 0xFFFFFFFFFFFFFFFF) (V 2 1) = ok 4 0 := by decide
theorem test_add_r : ran (V 0 0xFFFFFFFFFFFFFFFF) 0x0420 tx (V 0 1) = ok 1 0 := by decide
theorem test_sub_borrow : ran (V 0 0) 0x0021 (V 2 1) (V 1 2) = ok 0 0xFFFFFFFFFFFFFFFF := by decide
theorem test_mul : ran (V 0 0) 0x0022 (V 0x123456789ABCDEF0 0x0FEDCBA987654321) (V 1 2) =
    ok 0x3456789ABCDF0101 0x1FDB97530ECA8642 := by decide
theorem test_div_small : ran (V 0 0) 0x0023 tmax (V 0 10) = ok 0x1999999999999999 0x9999999999999999 := by decide
theorem test_div_long : ran (V 0 0) 0x0023 tx (V 0x1000 1) = ok 0 0x0000123456789ABC := by decide
theorem test_mod_long : ran (V 0 0) 0x0024 (V 4 0) (V 3 0) = ok 1 0 := by decide
theorem test_mod_zero : ran (V 0 9) 0x0424 (V 0 0) (V 0 0) = bad 0 9 .divZero := by decide

/-! Shifts and bitwise, T95 section 2.4. -/

theorem test_shl_63 : ran (V 0 0) 0x0030 tx (V 0 63) = ok 0xFF6E5D4C3B2A1908 0 := by decide
theorem test_shl_128 : ran (V 0 4) 0x0030 (V 0 0) (V 0 128) = bad 0 4 .shiftRange := by decide
theorem test_shr_65 : ran (V 0 0) 0x0031 tx (V 0 65) = ok 0 0x0091A2B3C4D5E6F7 := by decide
theorem test_shr_whole_amount : ran (V 0 4) 0x0031 tx (V 1 0) = bad 0 4 .shiftRange := by decide
theorem test_and : ran (V 0 0) 0x0032 tx (V 0xFFFF0000FFFF0000 0x00FF00FF00FF00FF) =
    ok 0x0123000089AB0000 0x00DC009800540010 := by decide
theorem test_or : ran (V 0 0) 0x0033 tx (V 0xFFFF0000FFFF0000 0x00FF00FF00FF00FF) =
    ok 0xFFFF4567FFFFCDEF 0xFEFFBAFF76FF32FF := by decide
theorem test_xor : ran (V 0 0) 0x0034 tx (V 0xFFFF0000FFFF0000 0x00FF00FF00FF00FF) =
    ok 0xFEDC45677654CDEF 0xFE23BA6776AB32EF := by decide
theorem test_not : ran (V 0 0) 0x0035 tx (V 0 0) = ok 0xFEDCBA9876543210 0x0123456789ABCDEF := by decide

/-! Ordering, T95 section 2.5: the high word decides, unsigned. -/

theorem test_cmp : ran (V 0 0) 0x0040 (V 0x7FFFFFFFFFFFFFFF 0xFFFFFFFFFFFFFFFF) (V 0x8000000000000000 0) =
    ok 0xFFFFFFFFFFFFFFFF 0xFFFFFFFFFFFFFFFF := by decide
theorem test_eq : ran (V 0 0) 0x0041 (V 1 0) (V 1 1) = ok 0 0 := by decide
theorem test_ne : ran (V 0 0) 0x0042 (V 1 0) (V 1 1) = ok 0 1 := by decide
theorem test_lt : ran (V 0 0) 0x0043 (V 5 1) (V 4 0xFFFFFFFFFFFFFFFF) = ok 0 0 := by decide
theorem test_le : ran (V 0 0) 0x0044 (V 0 5) (V 0 5) = ok 0 1 := by decide
theorem test_gt : ran (V 0 0) 0x0045 (V 1 0) (V 0 0xFFFFFFFFFFFFFFFF) = ok 0 1 := by decide
theorem test_ge : ran (V 0 0) 0x0046 (V 0 5) (V 0 7) = ok 0 0 := by decide

/-! Conversion out, T95 section 2.6, T96 section 3. -/

theorem test_trunc8 : ran (V 0 0) 0x0050 tx (V 0 0) = ok 0 0x10 := by decide
theorem test_trunc16 : ran (V 0 0) 0x0150 tx (V 0 0) = ok 0 0x3210 := by decide
theorem test_trunc32 : ran (V 0 0) 0x0250 tx (V 0 0) = ok 0 0x76543210 := by decide
theorem test_trunc64 : ran (V 0 0) 0x0350 tx (V 0 0) = ok 0 0xFEDCBA9876543210 := by decide
theorem test_fcvt32_double_rounding : ran (V 0 0) 0x0051 (V 0x1000001 0x8000000000000000) (V 0 0) =
    ok 0 0x6B800000 := by decide
theorem test_fcvt32_overflow : ran (V 0 0) 0x0051 (V 0xFFFFFF8000000000 0) (V 0 0) = ok 0 0x7F800000 := by decide
theorem test_fcvt64_tie : ran (V 0 0) 0x0052 (V 0 0x0020000000000003) (V 0 0) = ok 0 0x4340000000000002 := by decide
theorem test_fcvt64_below_tie : ran (V 0 0) 0x0052 (V 0 0xFFFFFFFFFFFFFBFF) (V 0 0) = ok 0 0x43EFFFFFFFFFFFFF := by
  decide

/-! Decoding: every row's word written out as `rsv acc w op` (R41 to R43), with `acc` = 0 and `acc` = 1. -/

/-- The word of the four fields, `rsv` above `acc` above `w` above `op`. -/
def word (rsv acc w op : Nat) : ControlWord := BitVec.ofNat 16 (rsv * 2048 + acc * 1024 + w * 256 + op)

theorem test_decode_primitives :
    [word 0b00000 0 0b00 0x01, word 0b00000 1 0b00 0x02, word 0b00000 0 0b00 0x03].map decode =
      [some (.mulw .portA), some (.divw .regR), some (.clz .portA)] := by decide

theorem test_decode_construction :
    [word 0 0 0 0x10, word 0 1 0 0x11, word 0 0 0 0x12, word 0 1 0 0x15, word 0 0 0 0x16].map decode =
      [some .zero, some (.set .regR), some (.cvtb .portA), some (.cvtf32 .regR), some (.cvtf64 .portA)] := by decide

theorem test_decode_widths_unsigned :
    [word 0 0 0b00 0x13, word 0 1 0b01 0x13, word 0 0 0b10 0x13, word 0 1 0b11 0x13].map decode =
      [some (.cvtu8 .portA), some (.cvtu16 .regR), some (.cvtu32 .portA), some (.cvtu64 .regR)] := by decide

theorem test_decode_widths_signed :
    [word 0 1 0b00 0x14, word 0 0 0b01 0x14, word 0 1 0b10 0x14, word 0 0 0b11 0x14].map decode =
      [some (.cvts8 .regR), some (.cvts16 .portA), some (.cvts32 .regR), some (.cvts64 .portA)] := by decide

theorem test_decode_widths_trunc :
    [word 0 1 0b00 0x50, word 0 0 0b01 0x50, word 0 1 0b10 0x50, word 0 0 0b11 0x50].map decode =
      [some (.trunc8 .regR), some (.trunc16 .portA), some (.trunc32 .regR), some (.trunc64 .portA)] := by decide

theorem test_decode_arithmetic :
    [word 0 0 0 0x20, word 0 1 0 0x21, word 0 0 0 0x22, word 0 1 0 0x23, word 0 0 0 0x24].map decode =
      [some (.add .portA), some (.sub .regR), some (.mul .portA), some (.div .regR), some (.mod .portA)] := by decide

theorem test_decode_shift_bitwise :
    [word 0 0 0 0x30, word 0 1 0 0x31, word 0 0 0 0x32, word 0 1 0 0x33, word 0 0 0 0x34, word 0 1 0 0x35].map decode =
      [some (.shl .portA), some (.shr .regR), some (.and .portA), some (.or .regR), some (.xor .portA),
       some (.not .regR)] := by decide

theorem test_decode_ordering :
    [word 0 1 0 0x40, word 0 0 0 0x41, word 0 1 0 0x42, word 0 0 0 0x43, word 0 1 0 0x44, word 0 0 0 0x45,
     word 0 1 0 0x46].map decode =
      [some (.cmp .regR), some (.eq .portA), some (.ne .regR), some (.lt .portA), some (.le .regR), some (.gt .portA),
       some (.ge .regR)] := by decide

theorem test_decode_conversion_out :
    [word 0 0 0 0x51, word 0 1 0 0x52].map decode = [some (.fcvt32 .portA), some (.fcvt64 .regR)] := by decide

/-- No control word belongs to two rows: any two rows differ in a bit both masks look at (R47). -/
theorem test_rows_do_not_overlap :
    opTable.Pairwise fun p q => (p.pattern ^^^ q.pattern) &&& (p.mask &&& q.mask) ≠ 0 := by decide

theorem test_table_has_40_rows : opTable.length = 40 := by decide

/-! What the decoder refuses, one word for each condition of R47, T96 section 4. -/

theorem test_refuse_unassigned_op : [0x0000, 0x0004, 0x0036, 0x00FF].map decode = [none, none, none, none] := by decide
theorem test_refuse_reserved_bits : [0x0820, 0x1020, 0x8020, 0x0813].map decode = [none, none, none, none] := by decide
theorem test_refuse_width : [0x0120, 0x0311, 0x0251, 0x0110].map decode = [none, none, none, none] := by decide
theorem test_refuse_zero_acc : decode 0x0410 = none := by decide
theorem test_illegal_before_operands : ran (V 0 9) 0x0123 (V 0 7) (V 0 0) = bad 0 9 .illegalCmd := by decide

/-! Assembler lines R50 admits and, for each check, one it does not. -/

theorem test_line_well_formed : (AsmLine.mk (.add .regR) none (some (V 0 1))).wellFormed = true := by decide
theorem test_line_needs_left_literal : (AsmLine.mk (.add .portA) none (some (V 0 1))).leftOk = false := by decide
theorem test_line_forbids_left_literal_with_r :
    (AsmLine.mk (.add .regR) (some (V 0 5)) (some (V 0 1))).leftOk = false := by decide
theorem test_line_zero_takes_no_left : (AsmLine.mk .zero (some (V 0 5)) none).leftOk = false := by decide
theorem test_line_needs_right : (AsmLine.mk (.add .regR) none none).rightOk = false := by decide
theorem test_line_forbids_right_on_unary : (AsmLine.mk (.not .regR) none (some (V 0 1))).rightOk = false := by decide
theorem test_ill_formed_has_no_command : assemble (AsmLine.mk (.not .regR) none (some (V 0 1))) = none := by decide

/-- R50's example: `ADD R, 1` assembles to `CW` = 0x0420, `A` = 0, `B` = 1. -/
theorem test_assemble_text :
    assembleText ['A', 'D', 'D', ' ', 'R', ',', ' ', '1'] = some [⟨0x0420, V 0 0, V 0 1⟩] := by decide

/-- A word pair, a width suffix, a comment; R78's control word. -/
theorem test_assemble_text_pair :
    assembleText ['C', 'V', 'T', 'U', '.', '6', '4', ' ', '0', 'x', '1', ':', '0', 'x', 'F', 'f', ' ', ';', 'R'] =
      some [⟨0x0313, V 1 255, V 0 0⟩] := by decide

theorem test_assemble_text_pseudo :
    assembleText ['N', 'E', 'G', ' ', 'R'] = some [⟨0x0435, V 0 0, V 0 0⟩, ⟨0x0420, V 0 0, V 0 1⟩] := by decide

theorem test_assemble_text_refuses :
    [['A', 'D', 'D', ' ', 'R'], ['Z', 'E', 'R', 'O', ' ', '1'], ['C', 'V', 'T', 'U', ' ', '1'],
     ['N', 'O', 'T', ' ', '1', ',', '2'], ['M', 'O', 'V', ' ', 'R']].map assembleText =
      [none, none, none, none, none] := by decide

/-! The text codec, T95 E7 and T96 section 6. -/

theorem test_encode_text : encodeText .reset (V 0 4294967296) = ['4', '2', '9', '4', '9', '6', '7', '2', '9', '6'] := by
  decide
theorem test_decode_text : decodeText .reset ['-', '1'] = some tmax := by decide
theorem test_decode_text_malformed :
    [[], ['+'], ['1', '2', 'a'], [' ', '1', '2']].map (decodeText .reset) = [none, none, none, none] := by decide

/-! What the host asks: a table word placed by `withFetchWord` runs in the next step. -/

theorem test_fetch_word : decodeTableWord 16 0x0035 = some (.not .portA) ∧
    step (State.reset.withFetchWord 16 0x0035) =
      .next { State.reset with r := tmax, done := true } := ⟨by decide, by rfl⟩

/-! Witnesses: for the hypotheses of each statement, a state and operands that meet them all. -/

/-- A faulted state with a command on the ports and a reset to come. -/
def faulted : State :=
  { State.reset with r := V 1 2, fault := true, cause := .divZero, inp := ⟨false, true, 0x0010, tx, tx⟩ }

theorem witness_ResetStateHasTheStatedValues : PortIn.rst ⟨false, true, 0x0010, tx, tx⟩ = false := by decide
theorem witness_ResetStepClearsTheUnit : ({ faulted with inp := { PortIn.idle with rst := true } } : State).inp.rst =
    true := by decide
theorem witness_StepRunsTheDecodedCommand :
    Accepts (st tx 0x0420 tx tx) ∧ decode (st tx 0x0420 tx tx).inp.cw = some (.add .regR) := by
  unfold Accepts; decide
theorem witness_IllegalControlWordFaults_op : Accepts (st tx 0x0000 tx tx) ∧ Illegal (st tx 0x0000 tx tx).inp.cw := by
  unfold Accepts Illegal; decide
theorem witness_IllegalControlWordFaults_rsv : Accepts (st tx 0x0820 tx tx) ∧ Illegal (st tx 0x0820 tx tx).inp.cw := by
  unfold Accepts Illegal; decide
theorem witness_IllegalControlWordFaults_w : Accepts (st tx 0x0120 tx tx) ∧ Illegal (st tx 0x0120 tx tx).inp.cw := by
  unfold Accepts Illegal; decide
theorem witness_IllegalControlWordFaults_acc : Accepts (st tx 0x0410 tx tx) ∧ Illegal (st tx 0x0410 tx tx).inp.cw := by
  unfold Accepts Illegal; decide
theorem witness_UnacceptedStepHoldsTheState_idle : State.reset.inp.rst = false ∧ State.reset.inp.cmdValid = false := by
  decide
theorem witness_UnacceptedStepHoldsTheState_faulted : faulted.inp.rst = false ∧ faulted.fault = true := by decide
theorem witness_FaultedUnitIsStuckUntilReset :
    faulted.fault = true ∧ faulted.inp.rst = false ∧ ∀ p ∈ faulted.host, p.rst = false := by decide
theorem witness_OnlyResetLeavesTheFaultedState_reset :
    ∃ t, step { faulted with inp := { PortIn.idle with rst := true } } = .next t ∧ faulted.fault = true :=
  ⟨State.reset, rfl, rfl⟩
theorem witness_OnlyResetLeavesTheFaultedState_stuck : ∃ t, step faulted = .next t ∧ faulted.fault = true :=
  ⟨_, rfl, rfl⟩
theorem witness_StepKeepsTheStatusInvariant : (st tx 0x0023 tx (V 0 0)).StatusOk ∧
    ∃ t, step (st tx 0x0023 tx (V 0 0)) = .next t ∧ t.fault = true :=
  ⟨by unfold State.StatusOk; decide, _, rfl, rfl⟩
theorem witness_StepKeepsTheStatusInvariant_faulted : faulted.StatusOk ∧ ∃ t, step faulted = .next t :=
  ⟨by unfold State.StatusOk; decide, _, rfl⟩
theorem witness_IgnoredOperandBitsHaveNoEffect :
    reads (st tx 0x0003 (V 0 1) (V 0 0)) (.clz .portA) = reads (st tx 0x0003 (V 7 1) tx) (.clz .portA) ∧
      (V 0 1 : Value) ≠ V 7 1 := by decide
theorem witness_PseudoInstructionsComputeTheirMeaning : (st tx 0 tx tx).fault = false := by decide

theorem witness_Divw_fits : (X (st tx 2 (V 6 0xFFFFFFFFFFFFFFFF) (V 0 7)) .portA).hi.toNat <
    (B (st tx 2 (V 6 0xFFFFFFFFFFFFFFFF) (V 0 7))).lo.toNat := by decide
theorem witness_Divw_zero : (B (st tx 2 (V 0 5) (V 7 0))).lo.toNat = 0 := by decide
theorem witness_Divw_overflow : (B (st tx 2 (V 7 0) (V 0 7))).lo.toNat ≠ 0 ∧
    (B (st tx 2 (V 7 0) (V 0 7))).lo.toNat ≤ (X (st tx 2 (V 7 0) (V 0 7)) .portA).hi.toNat := by decide
theorem witness_Clz_nonzero : (X (st (V 0 1) 0x0403 tx tx) .regR).lo.toNat ≠ 0 := by decide
theorem witness_Clz_zero : (X (st (V 1 0) 0x0403 tx tx) .regR).lo.toNat = 0 := by decide
theorem witness_Cvtf32_finite : (X (st tx 0x0015 (V 0 0x7F7FFFFF) tx) .portA).lo.toNat / 2 ^ 23 % 2 ^ 8 = 254 := by
  decide
theorem witness_Cvtf32_nonfinite : (X (st tx 0x0015 (V 0 0x7F800000) tx) .portA).lo.toNat / 2 ^ 23 % 2 ^ 8 = 255 := by
  decide
theorem witness_Cvtf64_completes :
    (X (st tx 0x0016 (V 0 0x4B2FFFFFFFFFFFFF) tx) .portA).lo.toNat / 2 ^ 52 % 2 ^ 11 = 1202 := by decide
theorem witness_Cvtf64_range :
    (X (st tx 0x0016 (V 0 0x4B30000000000000) tx) .portA).lo.toNat / 2 ^ 52 % 2 ^ 11 = 1203 ∧
    (X (st tx 0x0016 (V 0 0x7FEFFFFFFFFFFFFF) tx) .portA).lo.toNat / 2 ^ 52 % 2 ^ 11 = 2046 := by decide
theorem witness_Cvtf64_nonfinite :
    (X (st tx 0x0016 (V 0 0x7FF0000000000000) tx) .portA).lo.toNat / 2 ^ 52 % 2 ^ 11 = 2047 := by decide
theorem witness_Div_nonzero : (B (st tx 0x0023 tx (V 1 0))).toNat ≠ 0 := by decide
theorem witness_Div_zero : (B (st tx 0x0023 tx (V 0 0))).toNat = 0 := by decide
theorem witness_Mod_nonzero : (B (st tx 0x0024 tx (V 0 1))).toNat ≠ 0 := by decide
theorem witness_Mod_zero : (B (st tx 0x0024 tx (V 0 0))).toNat = 0 := by decide
theorem witness_LongDivision : (V 1 0).hi ≠ 0 ∧ (V 1 0).toNat ≤ tmax.toNat := by decide
theorem witness_Shl_in_range : (B (st tx 0x0030 tx (V 0 127))).toNat < 128 := by decide
theorem witness_Shl_out_of_range : 128 ≤ (B (st tx 0x0030 tx (V 0 128))).toNat := by decide
theorem witness_Shr_in_range : (B (st tx 0x0031 tx (V 0 127))).toNat < 128 := by decide
theorem witness_Shr_out_of_range : 128 ≤ (B (st tx 0x0031 tx (V 0 128))).toNat := by decide
theorem witness_ShiftThereAndBack : tx.toNat < 2 ^ (128 - (7 : Fin 128).val) := by decide
theorem witness_Cmp_eq : (X (st tx 0x0440 tmax tx) .regR).toNat = (B (st tx 0x0440 tmax tx)).toNat := by decide
theorem witness_Cmp_gt : (X (st tx 0x0040 (V 1 0) (V 0 tmax.lo.toNat)) .portA).toNat >
    (B (st tx 0x0040 (V 1 0) (V 0 tmax.lo.toNat))).toNat := by decide
theorem witness_Cmp_lt : (X (st tx 0x0040 (V 1 0) (V 1 1)) .portA).toNat <
    (B (st tx 0x0040 (V 1 0) (V 1 1))).toNat := by decide
theorem witness_ExactConversions_24 : Representable 24 (V 0xFFFFFF0000000000 0xFFFFFF).hi.toNat ∧
    Representable 24 (V 0xFFFFFF0000000000 0xFFFFFF).lo.toNat ∧ Representable 24 (V 0xFFFFFF0000000000 0).toNat :=
  ⟨⟨0xFFFFFF, 40, by decide, by decide⟩, ⟨0xFFFFFF, 0, by decide, by decide⟩, ⟨0xFFFFFF, 104, by decide, by decide⟩⟩
theorem witness_ExactConversions_53 : Representable 53 (V 0x1FFFFFFFFFFFFF 0x3).hi.toNat ∧
    Representable 53 (V 0x1FFFFFFFFFFFFF 0x3).lo.toNat ∧ Representable 53 (V 0x1FFFFFFFFFFFFF 0).toNat :=
  ⟨⟨0x1FFFFFFFFFFFFF, 0, by decide, by decide⟩, ⟨3, 0, by decide, by decide⟩, ⟨0x1FFFFFFFFFFFFF, 64, by decide, by decide⟩⟩
theorem witness_Fcvt32_overflow : 0xFFFFFF8000000000 ≤ (X (st tx 0x0051 (V 0xFFFFFF8000000000 0) tx) .portA).hi.toNat := by
  decide
theorem witness_Fcvt32_no_overflow :
    (X (st tx 0x0051 (V 0xFFFFFF7FFFFFFFFF 0) tx) .portA).hi.toNat < 0xFFFFFF8000000000 := by decide
theorem witness_EncodeText : State.reset.fault = false := by decide
theorem witness_DecodeText : State.reset.fault = false ∧ [0, 9] ≠ [] ∧ ∀ d ∈ [0, 9], d < 10 := by decide
theorem witness_AssemblerEncodesItsLine_zero : Admitted ⟨.zero, none, none⟩ := ⟨rfl, rfl⟩
theorem witness_AssemblerEncodesItsLine_binary : Admitted ⟨.add .regR, none, some (V 0 1)⟩ := ⟨by decide, rfl⟩
theorem witness_AssemblerEncodesItsLine_unary : Admitted ⟨.not .portA, some (V 0 5), none⟩ := ⟨by decide, rfl⟩
theorem witness_AssemblerEncodesItsLine_not_admitted : ¬ Admitted ⟨.zero, none, some (V 0 1)⟩ := fun h =>
  absurd h.2 (by decide)
theorem witness_EveryOther_mulw : ∀ c, ¬ Raises (st tx 0x0001 tx tx) (.mulw .portA) c := by simp [Raises]
theorem witness_EveryOther_shl : ∀ c, ¬ Raises (st tx 0x0030 tx (V 0 127)) (.shl .portA) c := by
  rintro c ⟨-, h⟩
  exact absurd h (by decide)
theorem witness_EveryOther_cvtf64 : ∀ c, ¬ Raises (st tx 0x0016 (V 0 0x4B2FFFFFFFFFFFFF) tx) (.cvtf64 .portA) c := by
  rintro c (⟨-, h⟩ | ⟨-, -, h⟩) <;> exact absurd h (by decide)
theorem witness_EveryOther_raises_cvtf64 :
    Raises (st tx 0x0016 (V 0 0x7FEFFFFFFFFFFFFF) tx) (.cvtf64 .portA) .shiftRange :=
  .inr ⟨rfl, by decide, by decide⟩
theorem witness_EveryOther_raises_divw : Raises (st tx 0x0002 (V 7 0) (V 0 7)) (.divw .portA) .divwOverflow :=
  .inr ⟨rfl, by decide, by decide⟩

end Sys2Proof.Tests
end

/-! The proofs of the family "encoding": a command's outcome is a function of the operand bits it reads
(spec/30_encoding.md R44). First what equal read bits say about the operands, one lemma for each entry of R42's column
"operands read", then the commands. -/

namespace Sys2Proof.Noninterference

open Sys2Proof.Machine Sys2Proof.Claims

section LowBits

variable {n : Nat} {v w : Word}

theorem setWidth_eq_of_mod_eq (h : v.toNat % 2 ^ n = w.toNat % 2 ^ n) : v.setWidth n = w.setWidth n :=
  BitVec.eq_of_toNat_eq (by simpa only [BitVec.toNat_setWidth] using h)

theorem getLsbD_eq_of_mod_eq {k : Nat} (hk : k < n) (h : v.toNat % 2 ^ n = w.toNat % 2 ^ n) :
    v.getLsbD k = w.getLsbD k := by
  have hbit := congrArg (·.getLsbD k) (setWidth_eq_of_mod_eq h)
  simpa [hk] using hbit

theorem zextLow_eq_of_mod_eq (h : v.toNat % 2 ^ n = w.toNat % 2 ^ n) : zextLow n v = zextLow n w := by
  rw [zextLow, zextLow, setWidth_eq_of_mod_eq h]

theorem sextLow_eq_of_mod_eq (h : v.toNat % 2 ^ n = w.toNat % 2 ^ n) : sextLow n v = sextLow n w := by
  rw [sextLow, sextLow, setWidth_eq_of_mod_eq h]

theorem signFill_eq_of_mod_eq (hn : 0 < n) (h : v.toNat % 2 ^ n = w.toNat % 2 ^ n) : signFill n v = signFill n w := by
  rw [signFill, signFill, getLsbD_eq_of_mod_eq (Nat.sub_one_lt_of_lt hn) h]

end LowBits

section ValueLowBits

variable {n : Nat} {x y : Value}

theorem zextValue_eq_of_mod_eq (h : x.lo.toNat % 2 ^ n = y.lo.toNat % 2 ^ n) : zextValue n x = zextValue n y := by
  rw [zextValue, zextValue, zextLow_eq_of_mod_eq h]

theorem sextValue_eq_of_mod_eq (hn : 0 < n) (h : x.lo.toNat % 2 ^ n = y.lo.toNat % 2 ^ n) :
    sextValue n x = sextValue n y := by
  rw [sextValue, sextValue, sextLow_eq_of_mod_eq h, signFill_eq_of_mod_eq hn h]

theorem truncValue_eq_of_mod_eq (h : x.lo.toNat % 2 ^ n = y.lo.toNat % 2 ^ n) : truncValue n x = truncValue n y := by
  rw [truncValue, truncValue, zextLow_eq_of_mod_eq h]

end ValueLowBits

section Operands

variable {s s' : State} {x : Left}

theorem X_eq_left (s : State) (x : Left) : X s x = s.left x := by
  cases x <;> rfl

theorem left_eq_of_toNat_eq (h : (X s x).toNat = (X s' x).toNat) : s.left x = s'.left x := by
  rw [← X_eq_left, ← X_eq_left, Value.ext_toNat h]

theorem left_lo_eq_of_toNat_eq (h : (X s x).lo.toNat = (X s' x).lo.toNat) : (s.left x).lo = (s'.left x).lo := by
  rw [← X_eq_left, ← X_eq_left, BitVec.eq_of_toNat_eq h]

theorem left_eq_of_reads (h : [(X s x).toNat] = [(X s' x).toNat]) : s.left x = s'.left x :=
  left_eq_of_toNat_eq (List.singleton_inj.mp h)

theorem left_lo_eq_of_reads (h : [(X s x).lo.toNat] = [(X s' x).lo.toNat]) : (s.left x).lo = (s'.left x).lo :=
  left_lo_eq_of_toNat_eq (List.singleton_inj.mp h)

theorem left_low_eq_of_reads {m : Nat} (h : [(X s x).lo.toNat % m] = [(X s' x).lo.toNat % m]) :
    (s.left x).lo.toNat % m = (s'.left x).lo.toNat % m := by
  rw [← X_eq_left, ← X_eq_left, List.singleton_inj.mp h]

theorem left_right_eq_of_reads (h : [(X s x).toNat, (B s).toNat] = [(X s' x).toNat, (B s').toNat]) :
    s.left x = s'.left x ∧ s.right = s'.right := by
  obtain ⟨hx, hb⟩ := List.cons_eq_cons.mp h
  exact ⟨left_eq_of_toNat_eq hx, Value.ext_toNat (List.singleton_inj.mp hb)⟩

theorem left_right_lo_eq_of_reads (h : [(X s x).toNat, (B s).lo.toNat] = [(X s' x).toNat, (B s').lo.toNat]) :
    s.left x = s'.left x ∧ s.right.lo = s'.right.lo := by
  obtain ⟨hx, hb⟩ := List.cons_eq_cons.mp h
  exact ⟨left_eq_of_toNat_eq hx, BitVec.eq_of_toNat_eq (List.singleton_inj.mp hb)⟩

theorem left_lo_right_lo_eq_of_reads
    (h : [(X s x).lo.toNat, (B s).lo.toNat] = [(X s' x).lo.toNat, (B s').lo.toNat]) :
    (s.left x).lo = (s'.left x).lo ∧ s.right.lo = s'.right.lo := by
  obtain ⟨hx, hb⟩ := List.cons_eq_cons.mp h
  exact ⟨left_lo_eq_of_toNat_eq hx, BitVec.eq_of_toNat_eq (List.singleton_inj.mp hb)⟩

end Operands

section Ending

variable {i : Instr} {s s' : State}

theorem complete_alike {v v' : Value} (hs : Completes i s v) (hs' : Completes i s' v') (hv : v = v') :
    (∃ v, Completes i s v ∧ Completes i s' v) ∨ ∃ c, FaultsWith i s c ∧ FaultsWith i s' c :=
  .inl ⟨v, hs, hv ▸ hs'⟩

/-- A command that hands equal results to the end of R49's template ends alike in both states. -/
theorem finish_alike {e e' : Except Cause Value} (hs : exec i s = s.finish e) (hs' : exec i s' = s'.finish e')
    (he : e = e') : (∃ v, Completes i s v ∧ Completes i s' v) ∨ ∃ c, FaultsWith i s c ∧ FaultsWith i s' c := by
  subst he
  cases e with
  | ok v => exact .inl ⟨v, hs, hs'⟩
  | error c => exact .inr ⟨c, hs, hs'⟩

end Ending

/-- Settles O12, by cases on the command: each computes its result from the operands it reads, and equal read bits make
those equal. -/
theorem ignoredOperandBitsHaveNoEffect : Obligations.IgnoredOperandBitsHaveNoEffect := by
  intro i s s' h
  cases i with
  | zero => exact complete_alike rfl rfl rfl
  | mulw x =>
    obtain ⟨hx, hb⟩ := left_lo_right_lo_eq_of_reads h
    exact complete_alike rfl rfl (by rw [hx, hb])
  | divw x =>
    obtain ⟨hx, hb⟩ := left_right_lo_eq_of_reads h
    exact finish_alike rfl rfl (by rw [hx, hb])
  | clz x | cvtf64 x => exact finish_alike rfl rfl (by rw [left_lo_eq_of_reads h])
  | cvtu64 x | cvts64 x | trunc64 x =>
    exact complete_alike rfl rfl (by simp only [zextValue, sextValue, truncValue, left_lo_eq_of_reads h])
  | set x | not x | fcvt32 x | fcvt64 x => exact complete_alike rfl rfl (by rw [left_eq_of_reads h])
  | cvtb x => exact complete_alike rfl rfl (by rw [getLsbD_eq_of_mod_eq Nat.one_pos (left_low_eq_of_reads h)])
  | cvtu8 x | cvtu16 x | cvtu32 x =>
    exact complete_alike rfl rfl (zextValue_eq_of_mod_eq (left_low_eq_of_reads h))
  | cvts8 x | cvts16 x | cvts32 x =>
    exact complete_alike rfl rfl (sextValue_eq_of_mod_eq (by decide) (left_low_eq_of_reads h))
  | trunc8 x | trunc16 x | trunc32 x =>
    exact complete_alike rfl rfl (truncValue_eq_of_mod_eq (left_low_eq_of_reads h))
  | cvtf32 x => exact finish_alike rfl rfl (by rw [setWidth_eq_of_mod_eq (left_low_eq_of_reads h)])
  | div x | mod x | shl x | shr x =>
    obtain ⟨hx, hb⟩ := left_right_eq_of_reads h
    exact finish_alike rfl rfl (by rw [hx, hb])
  | add x | sub x | mul x | and x | or x | xor x | cmp x | eq x | ne x | lt x | le x | gt x | ge x =>
    obtain ⟨hx, hb⟩ := left_right_eq_of_reads h
    exact complete_alike rfl rfl (by rw [hx, hb])

end Sys2Proof.Noninterference

/-! The proofs of the family "primitives": MULW, DIVW and CLZ (spec/40_primitives.md R60 to R65). First how a command
ends once its result is known, then each command's result in the terms of the statements. -/

namespace Sys2Proof.Primitives

open Sys2Proof.Machine Sys2Proof.Claims Sys2Proof.Noninterference

section Ending

variable {i : Instr} {s : State} {e : Except Cause Value}

/-- A command that hands a value to the end of R49's template completes with it. -/
theorem completes_of_finish {v : Value} (hs : exec i s = s.finish e) (he : e = .ok v) : Completes i s v := by
  subst he
  exact hs

/-- A command that hands a cause to the end of R49's template faults with it. -/
theorem faultsWith_of_finish {c : Cause} (hs : exec i s = s.finish e) (he : e = .error c) : FaultsWith i s c := by
  subst he
  exact hs

end Ending

section Commands

/-- A number that fits one word is the same Value whether it is written as a word or as a number. -/
theorem valueOfWord_ofNat {n : Nat} (h : n < 2 ^ 64) : valueOfWord (BitVec.ofNat 64 n) = Value.ofNat n := by
  rw [valueOfWord, Value.ofNat, Nat.div_eq_of_lt h]
  rfl

variable (s : State) (x : Left)

/-- The words of `mulw64` are the words of the product's Value (R60). -/
theorem exec_mulw : exec (.mulw x) s = s.finish (.ok (Value.ofNat ((X s x).lo.toNat * (B s).lo.toNat))) := by
  rw [X_eq_left]
  rfl

theorem exec_divw :
    exec (.divw x) s = s.finish ((divw (X s x).hi (X s x).lo (B s).lo).map fun qr => ⟨qr.1, qr.2⟩) := by
  rw [X_eq_left]
  rfl

theorem exec_clz : exec (.clz x) s = s.finish ((clz64 (X s x).lo).map fun n => Value.ofNat n.val) := by
  have hword (n : Fin 64) : valueOfWord (BitVec.ofNat 64 n.val) = Value.ofNat n.val := valueOfWord_ofNat (by omega)
  simp only [← hword, X_eq_left]
  rfl

end Commands

/-- Settles O22: MULW always completes, and the two words it writes are those of the product. -/
theorem mulwWritesTheExactProduct : Obligations.MulwWritesTheExactProduct :=
  ⟨⟨Laws.DecodeEncode.mulw .portA, Laws.DecodeEncode.mulw .regR⟩, fun s x => completes_of_finish (exec_mulw s x) rfl⟩

/-- Settles O23, by cases on the divider's precondition: its value where the quotient fits, else the cause of a zero
divisor or of the overflow. -/
theorem divwWritesQuotientAndRemainder : Obligations.DivwWritesQuotientAndRemainder := by
  refine ⟨⟨Laws.DecodeEncode.divw .portA, Laws.DecodeEncode.divw .regR⟩, fun s x => ⟨?fits, ?zero, ?overflow⟩⟩
  case fits =>
    intro hfits
    obtain ⟨q, r, hdiv, hq, hr⟩ := divw_spec (nLo := (X s x).lo) hfits
    exact ⟨⟨q, r⟩, completes_of_finish (exec_divw s x) (by rw [hdiv]; rfl), hq, hr⟩
  case zero =>
    intro hzero
    have hd : (B s).lo = 0 := BitVec.eq_of_toNat_eq hzero
    exact faultsWith_of_finish (exec_divw s x) (by rw [hd, divw_zero]; rfl)
  case overflow =>
    intro hne hle
    have hd : (B s).lo ≠ 0 := fun h0 => hne (congrArg BitVec.toNat h0)
    exact faultsWith_of_finish (exec_divw s x) (by rw [divw_overflow hd hle]; rfl)

/-- Settles O24: a nonzero word has the count of `clz64_spec`, and the zero word has none. -/
theorem clzCountsLeadingZeros : Obligations.ClzCountsLeadingZeros := by
  refine ⟨⟨Laws.DecodeEncode.clz .portA, Laws.DecodeEncode.clz .regR⟩, fun s x => ⟨?nonzero, ?zero⟩⟩
  case nonzero =>
    intro hne
    have hx : (X s x).lo ≠ 0 := fun h0 => hne (congrArg BitVec.toNat h0)
    obtain ⟨n, hclz, hlow, hhigh⟩ := clz64_spec hx
    exact ⟨n.val, by omega, hlow, hhigh, completes_of_finish (exec_clz s x) (by rw [hclz]; rfl)⟩
  case zero =>
    intro hzero
    have hx : (X s x).lo = 0 := BitVec.eq_of_toNat_eq hzero
    exact faultsWith_of_finish (exec_clz s x) (by rw [hx, clz64_zero]; rfl)

end Sys2Proof.Primitives

/-! The proofs of the family "construction": ZERO, SET, CVTB, CVTU.w, CVTS.w, CVTF32 and CVTF64
(spec/41_construction.md R75 to R83). First an operation's two control words and how a command of one operand ends, then
the integer extensions as numbers, then the floating-point construction as the signed integer part. -/

namespace Sys2Proof.Construction

open Sys2Proof.Machine Sys2Proof.Claims Sys2Proof.Noninterference Sys2Proof.Primitives

section Commands

/-- An operation whose instructions decode from their own encodings has the control words its encodings are (R41). -/
theorem hasWords_of_encode {make : Left → Instr} {w : Nat} (hdec : ∀ x, Laws.DecodeEncode.Statement (make x))
    (hA : encode (make .portA) = BitVec.ofNat 16 w) (hR : encode (make .regR) = BitVec.ofNat 16 (w + 0x0400)) :
    HasWords make w :=
  ⟨hA ▸ hdec .portA, hR ▸ hdec .regR⟩

variable {i : Instr} {s : State} {x : Left} {v : Value}

/-- A command that hands a function of its left operand to the end of R49's template completes with that function's
value at `X`. -/
theorem completes_of_left (f : Value → Value) (hs : exec i s = s.finish (.ok (f (s.left x)))) (hv : f (X s x) = v) :
    Completes i s v :=
  completes_of_finish hs (by rw [← X_eq_left, hv])

end Commands

section Numbers

theorem toNat_ofInt (z : Int) : (ofInt z).toNat = (z % 2 ^ 128).toNat := by
  rw [ofInt, Value.toNat_ofNat]
  omega

/-- A Value is that of an integer when its number is congruent to it modulo 2^128. -/
theorem eq_ofInt {v : Value} {z : Int} (h : (v.toNat : Int) = z % 2 ^ 128) : v = ofInt z :=
  Value.ext_toNat (by rw [toNat_ofInt]; omega)

theorem zextLow_toNat {n : Nat} (hn : n ≤ 64) (w : Word) : (zextLow n w).toNat = w.toNat % 2 ^ n := by
  have hle : 2 ^ n ≤ 2 ^ 64 := Nat.pow_le_pow_right (by decide) hn
  have hlt : w.toNat % 2 ^ n < 2 ^ n := Nat.mod_lt _ (Nat.two_pow_pos n)
  rw [zextLow, BitVec.toNat_setWidth, BitVec.toNat_setWidth, Nat.mod_eq_of_lt (by omega)]

/-- Zero extension keeps the number of the low `n` bits (R78). -/
theorem zextValue_eq_ofNat {n : Nat} (hn : n ≤ 64) (v : Value) : zextValue n v = Value.ofNat (v.lo.toNat % 2 ^ n) := by
  have hlo : v.lo.toNat % 2 ^ n < 2 ^ 64 := Nat.lt_of_le_of_lt (Nat.mod_le _ _) v.lo.isLt
  apply Value.eq_ofNat
  rw [zextValue, Value.toNat_mk, zextLow_toNat hn, Nat.mod_eq_of_lt (by omega : _ < 2 ^ 128)]
  rfl

/-- The boolean of bit 0 is the unsigned integer of width 1 (R77). -/
theorem boolValue_eq_ofNat (w : Word) : boolValue (w.getLsbD 0) = Value.ofNat (w.toNat % 2) := by
  have hbit : w.getLsbD 0 = decide (w.toNat % 2 = 1) := by
    rw [← BitVec.testBit_toNat, Nat.testBit_zero]
  rcases Nat.mod_two_eq_zero_or_one w.toNat with h | h <;> rw [hbit, h] <;> rfl

theorem sextLow_toNat {n : Nat} (hn : n ≤ 64) (w : Word) :
    (sextLow n w).toNat = (w.setWidth n).toNat + if (w.setWidth n).msb then 2 ^ 64 - 2 ^ n else 0 := by
  rw [sextLow, BitVec.toNat_signExtend, BitVec.toNat_setWidth_of_le hn]

/-- The word of the sign fill is all ones exactly under the source's sign bit. -/
theorem signFill_toNat {n : Nat} (hn : 0 < n) (w : Word) :
    (signFill n w).toNat = if (w.setWidth n).msb then 2 ^ 64 - 1 else 0 := by
  have hsign : (w.setWidth n).msb = w.getLsbD (n - 1) := by
    rw [BitVec.msb_eq_getLsbD_last, BitVec.getLsbD_setWidth, decide_eq_true (Nat.sub_one_lt_of_lt hn), Bool.true_and]
  rw [signFill, hsign]
  split <;> rfl

/-- Sign extension keeps the two's-complement integer of the low `n` bits, modulo 2^128 (R79). -/
theorem sextValue_eq_ofInt {n : Nat} (h0 : 0 < n) (hn : n ≤ 64) (v : Value) :
    sextValue n v = ofInt (v.lo.setWidth n).toInt := by
  have hle : 2 ^ n ≤ 2 ^ 64 := Nat.pow_le_pow_right (by decide) hn
  have hlt : (v.lo.setWidth n).toNat < 2 ^ n := (v.lo.setWidth n).isLt
  apply eq_ofInt
  rw [sextValue, Value.toNat_mk, sextLow_toNat hn, signFill_toNat h0, BitVec.toInt_eq_msb_cond]
  split <;> omega

end Numbers

section Float

theorem fsplit32_sign (u : BitVec 32) : (fsplit32 u).sign = decide (u.toNat / 2 ^ 31 % 2 = 1) := by
  rw [fsplit32, ← BitVec.testBit_toNat, Nat.testBit_eq_decide_div_mod_eq]

theorem fsplit64_sign (u : BitVec 64) : (fsplit64 u).sign = decide (u.toNat / 2 ^ 63 % 2 = 1) := by
  rw [fsplit64, ← BitVec.testBit_toNat, Nat.testBit_eq_decide_div_mod_eq]

/-- The magnitude of the number some fields stand for, rounded toward zero: `1.man · 2^(exp − bias)` (R81 a). -/
def magnitude (F : FpFormat) (f : FpFields) : Nat :=
  (2 ^ F.mw.val + f.man.toNat) * 2 ^ f.exp / 2 ^ (F.bias + F.mw.val)

/-- The number some fields stand for, rounded toward zero, negative under the sign (R81 a, d). -/
def integerPart (F : FpFormat) (f : FpFields) : Int :=
  if f.sign then -(magnitude F f : Int) else magnitude F f

/-- The construction from a finite pattern is its integer part modulo 2^128 (R81). -/
theorem fpToU128_eq_ofInt {F : FpFormat} {f : FpFields} (hman : f.man.toNat < 2 ^ F.mw.val) (hfin : f.exp ≠ F.expMax)
    (hexp : f.exp < F.bias + F.mw.val + 128) : fpToU128 F f = .ok (ofInt (integerPart F f)) := by
  obtain ⟨v, hok, hv⟩ := fpToU128_spec hman hfin hexp
  rw [← magnitude] at hv
  have hint : v = ofInt (integerPart F f) := by
    apply eq_ofInt
    rw [hv, integerPart]
    split <;> omega
  rw [hok, hint]

/-- The fields of the low 32 bits of a word are fields of the word. -/
theorem fsplit32_setWidth_exp (w : Word) : (fsplit32 (w.setWidth 32)).exp = w.toNat / 2 ^ 23 % 2 ^ 8 := by
  rw [fsplit32_exp, BitVec.toNat_setWidth]
  omega

theorem integerPart_fsplit32 (w : Word) : integerPart binary32 (fsplit32 (w.setWidth 32)) = trunc32 w.toNat := by
  have hscale : binary32.bias + binary32.mw.val = 150 := rfl
  have hmw : binary32.mw.val = 23 := rfl
  have hman : w.toNat % 2 ^ 32 % 2 ^ 23 = w.toNat % 2 ^ 23 := by omega
  have hsign : w.toNat % 2 ^ 32 / 2 ^ 31 % 2 = w.toNat / 2 ^ 31 % 2 := by omega
  rw [integerPart, magnitude, fsplit32_setWidth_exp, fsplit32_man, fsplit32_sign, BitVec.toNat_setWidth, hman, hsign,
    hscale, hmw]
  simp only [decide_eq_true_eq, trunc32]

theorem integerPart_fsplit64 (w : Word) : integerPart binary64 (fsplit64 w) = trunc64 w.toNat := by
  have hscale : binary64.bias + binary64.mw.val = 1075 := rfl
  have hmw : binary64.mw.val = 52 := rfl
  rw [integerPart, magnitude, fsplit64_exp, fsplit64_man, fsplit64_sign, hscale, hmw]
  simp only [decide_eq_true_eq, trunc64]

variable (s : State) (x : Left)

theorem exec_cvtf32 :
    exec (.cvtf32 x) s = s.finish (fpToU128 binary32 (fsplit32 ((X s x).lo.setWidth 32))) := by
  rw [X_eq_left]
  rfl

theorem exec_cvtf64 : exec (.cvtf64 x) s = s.finish (fpToU128 binary64 (fsplit64 (X s x).lo)) := by
  rw [X_eq_left]
  rfl

end Float

/-- Settles O27: CVTB and the four widths of CVTU are zero extensions of the low bits. -/
theorem unsignedConstructionZeroExtends : Obligations.UnsignedConstructionZeroExtends := by
  refine ⟨hasWords_of_encode Laws.DecodeEncode.cvtb rfl rfl, hasWords_of_encode Laws.DecodeEncode.cvtu8 rfl rfl,
    hasWords_of_encode Laws.DecodeEncode.cvtu16 rfl rfl, hasWords_of_encode Laws.DecodeEncode.cvtu32 rfl rfl,
    hasWords_of_encode Laws.DecodeEncode.cvtu64 rfl rfl, fun s x => ⟨?cvtb, ?cvtu8, ?cvtu16, ?cvtu32, ?cvtu64⟩⟩
  case cvtb => exact completes_of_left (fun v => boolValue (v.lo.getLsbD 0)) rfl (boolValue_eq_ofNat _)
  case cvtu8 => exact completes_of_left (zextValue 8) rfl (zextValue_eq_ofNat (by decide) _)
  case cvtu16 => exact completes_of_left (zextValue 16) rfl (zextValue_eq_ofNat (by decide) _)
  case cvtu32 => exact completes_of_left (zextValue 32) rfl (zextValue_eq_ofNat (by decide) _)
  case cvtu64 =>
    refine completes_of_left (zextValue 64) rfl ?_
    rw [zextValue_eq_ofNat (Nat.le_refl 64), Nat.mod_eq_of_lt (X s x).lo.isLt]

/-- Settles O28: the four widths of CVTS are sign extensions of the low bits. -/
theorem signedConstructionSignExtends : Obligations.SignedConstructionSignExtends := by
  refine ⟨hasWords_of_encode Laws.DecodeEncode.cvts8 rfl rfl, hasWords_of_encode Laws.DecodeEncode.cvts16 rfl rfl,
    hasWords_of_encode Laws.DecodeEncode.cvts32 rfl rfl, hasWords_of_encode Laws.DecodeEncode.cvts64 rfl rfl,
    fun s x => ⟨?cvts8, ?cvts16, ?cvts32, ?cvts64⟩⟩
  case cvts8 => exact completes_of_left (sextValue 8) rfl (sextValue_eq_ofInt (by decide) (by decide) _)
  case cvts16 => exact completes_of_left (sextValue 16) rfl (sextValue_eq_ofInt (by decide) (by decide) _)
  case cvts32 => exact completes_of_left (sextValue 32) rfl (sextValue_eq_ofInt (by decide) (by decide) _)
  case cvts64 =>
    refine completes_of_left (sextValue 64) rfl ?_
    rw [sextValue_eq_ofInt (by decide) (Nat.le_refl 64), BitVec.setWidth_eq]

/-- Settles O29: every biased exponent but the all-ones one is small enough for the left shifter. -/
theorem cvtf32WritesTheIntegerPart : Obligations.Cvtf32WritesTheIntegerPart := by
  refine ⟨hasWords_of_encode Laws.DecodeEncode.cvtf32 rfl rfl, fun s x => ?_⟩
  rw [← fsplit32_setWidth_exp, ← integerPart_fsplit32]
  refine ⟨?finite, ?nonfinite⟩
  case finite =>
    intro hfin
    have hexp : (fsplit32 ((X s x).lo.setWidth 32)).exp < 127 + 23 + 128 := by
      rw [fsplit32_exp]
      omega
    have hman : (fsplit32 ((X s x).lo.setWidth 32)).man.toNat < 2 ^ 23 := by
      rw [fsplit32_man]
      exact Nat.mod_lt _ (Nat.two_pow_pos 23)
    exact completes_of_finish (exec_cvtf32 s x) (fpToU128_eq_ofInt hman hfin hexp)
  case nonfinite => exact fun h => faultsWith_of_finish (exec_cvtf32 s x) (fpToU128_nonfinite h)

/-- Settles O30, by the ranges of the biased exponent: the left shifter takes those below 1203 = 1023 + 52 + 128. -/
theorem cvtf64WritesTheIntegerPart : Obligations.Cvtf64WritesTheIntegerPart := by
  refine ⟨hasWords_of_encode Laws.DecodeEncode.cvtf64 rfl rfl, fun s x => ?_⟩
  rw [← fsplit64_exp, ← integerPart_fsplit64]
  refine ⟨?completes, ?range, ?nonfinite⟩
  case completes =>
    intro hexp
    have hfin : (fsplit64 (X s x).lo).exp ≠ 2047 := by omega
    have hman : (fsplit64 (X s x).lo).man.toNat < 2 ^ 52 := by
      rw [fsplit64_man]
      exact Nat.mod_lt _ (Nat.two_pow_pos 52)
    exact completes_of_finish (exec_cvtf64 s x) (fpToU128_eq_ofInt hman hfin hexp)
  case range => exact fun hexp hfin => faultsWith_of_finish (exec_cvtf64 s x) (fpToU128_range hfin hexp)
  case nonfinite => exact fun h => faultsWith_of_finish (exec_cvtf64 s x) (fpToU128_nonfinite h)

/-- Settles O26: both commands always complete, and ZERO has no `acc` form. -/
theorem zeroAndSetWriteTheirValue : Obligations.ZeroAndSetWriteTheirValue :=
  ⟨Laws.DecodeEncode.zero, rfl, hasWords_of_encode Laws.DecodeEncode.set rfl rfl,
    fun _ => completes_of_finish rfl rfl, fun _ _ => completes_of_left id rfl rfl⟩

end Sys2Proof.Construction

/-! The proofs of the family "arithmetic": ADD, SUB, MUL, DIV and MOD (spec/42_arithmetic.md R90 to R103). First each
operation's result as the Value of the arithmetic on the operands' numbers, then the commands. -/

namespace Sys2Proof.Arithmetic

open Sys2Proof.Machine Sys2Proof.Claims Sys2Proof.Noninterference Sys2Proof.Primitives Sys2Proof.Construction

section Values

variable (x y : Value)

theorem add128_eq_ofNat : add128 x y = Value.ofNat (x.toNat + y.toNat) := Value.eq_ofNat (add128_toNat x y)

/-- A difference below zero is kept as its residue: the borrow out of the high word is dropped (R90, R93). -/
theorem sub128_eq_ofInt : sub128 x y = ofInt (x.toNat - y.toNat) := by
  have hy := y.toNat_lt
  apply eq_ofInt
  rw [sub128_toNat]
  omega

theorem mul128_eq_ofNat : mul128 x y = Value.ofNat (x.toNat * y.toNat) := Value.eq_ofNat (mul128_toNat x y)

/-- For a nonzero divisor the division, by either path, answers the quotient and the remainder (R100). -/
theorem divmod128_eq_ok {a d : Value} (hd : d.toNat ≠ 0) :
    divmod128 a d = .ok (Value.ofNat (a.toNat / d.toNat), Value.ofNat (a.toNat % d.toNat)) := by
  obtain ⟨q, r, hok, hq, hr⟩ := divmod128_spec (a := a) hd
  rw [hok, ← hq, ← hr, Value.ofNat_toNat, Value.ofNat_toNat]

end Values

section Commands

variable (s : State) (x : Left)

theorem exec_div : exec (.div x) s = s.finish ((divmod128 (X s x) (B s)).map (·.1)) := by
  rw [X_eq_left]
  rfl

theorem exec_mod : exec (.mod x) s = s.finish ((divmod128 (X s x) (B s)).map (·.2)) := by
  rw [X_eq_left]
  rfl

end Commands

/-- Settles O31: the carry between the words makes the word-wise sum the sum of the numbers. -/
theorem addWritesTheSum : Obligations.AddWritesTheSum :=
  ⟨hasWords_of_encode Laws.DecodeEncode.add rfl rfl,
    fun s x => completes_of_left (fun v => add128 v (B s)) rfl (add128_eq_ofNat (X s x) (B s))⟩

/-- Settles O32: the borrow between the words makes the word-wise difference the integer difference modulo 2^128. -/
theorem subWritesTheDifference : Obligations.SubWritesTheDifference :=
  ⟨hasWords_of_encode Laws.DecodeEncode.sub rfl rfl,
    fun s x => completes_of_left (fun v => sub128 v (B s)) rfl (sub128_eq_ofInt (X s x) (B s))⟩

/-- Settles O33: the partial product that MUL leaves out is a multiple of 2^128. -/
theorem mulWritesTheProduct : Obligations.MulWritesTheProduct :=
  ⟨hasWords_of_encode Laws.DecodeEncode.mul rfl rfl,
    fun s x => completes_of_left (fun v => mul128 v (B s)) rfl (mul128_eq_ofNat (X s x) (B s))⟩

/-- Settles O34: the quotient of the one division that DIV and MOD share. -/
theorem divWritesTheQuotient : Obligations.DivWritesTheQuotient := by
  refine ⟨hasWords_of_encode Laws.DecodeEncode.div rfl rfl, fun s x => ⟨?nonzero, ?zero⟩⟩
  case nonzero => exact fun hd => completes_of_finish (exec_div s x) (by rw [divmod128_eq_ok hd]; rfl)
  case zero => exact fun hd => faultsWith_of_finish (exec_div s x) (by rw [divmod128_zero hd]; rfl)

/-- Settles O35: the remainder of that division. -/
theorem modWritesTheRemainder : Obligations.ModWritesTheRemainder := by
  refine ⟨hasWords_of_encode Laws.DecodeEncode.mod rfl rfl, fun s x => ⟨?nonzero, ?zero⟩⟩
  case nonzero => exact fun hd => completes_of_finish (exec_mod s x) (by rw [divmod128_eq_ok hd]; rfl)
  case zero => exact fun hd => faultsWith_of_finish (exec_mod s x) (by rw [divmod128_zero hd]; rfl)

end Sys2Proof.Arithmetic

/-! The proofs of the family "shifts and bitwise logic": SHL, SHR, AND, OR, XOR and NOT (spec/43_shift_bitwise.md R105
to R113). First each operation's result as the Value of the arithmetic, or of the bitwise operation, on the operands'
numbers, then the commands. -/

namespace Sys2Proof.ShiftBitwise

open Sys2Proof.Machine Sys2Proof.Claims Sys2Proof.Noninterference Sys2Proof.Primitives Sys2Proof.Construction

section Values

variable (x y : Value) (n : Fin 128)

theorem shl128_eq_ofNat : shl128 x n = Value.ofNat (x.toNat * 2 ^ n.val) := Value.eq_ofNat (shl128_toNat x n)

theorem shr128_eq_ofNat : shr128 x n = Value.ofNat (x.toNat / 2 ^ n.val) := by
  rw [← shr128_toNat, Value.ofNat_toNat]

theorem not128_eq_ofNat : not128 x = Value.ofNat (2 ^ 128 - 1 - x.toNat) := by
  rw [← not128_toNat, Value.ofNat_toNat]

/-- A bitwise operation meets no carry at bit 64: it acts on the low and on the high word of a number separately
(R110). -/
theorem and128_ofNat (a b : Nat) : and128 (Value.ofNat a) (Value.ofNat b) = Value.ofNat (a &&& b) := by
  simp only [and128, Value.ofNat, BitVec.ofNat_and, Nat.and_div_two_pow]

theorem or128_ofNat (a b : Nat) : or128 (Value.ofNat a) (Value.ofNat b) = Value.ofNat (a ||| b) := by
  simp only [or128, Value.ofNat, BitVec.ofNat_or, Nat.or_div_two_pow]

theorem xor128_ofNat (a b : Nat) : xor128 (Value.ofNat a) (Value.ofNat b) = Value.ofNat (a ^^^ b) := by
  simp only [xor128, Value.ofNat, BitVec.ofNat_xor, Nat.xor_div_two_pow]

theorem and128_eq_ofNat : and128 x y = Value.ofNat (x.toNat &&& y.toNat) := by
  rw [← and128_ofNat, Value.ofNat_toNat, Value.ofNat_toNat]

theorem or128_eq_ofNat : or128 x y = Value.ofNat (x.toNat ||| y.toNat) := by
  rw [← or128_ofNat, Value.ofNat_toNat, Value.ofNat_toNat]

theorem xor128_eq_ofNat : xor128 x y = Value.ofNat (x.toNat ^^^ y.toNat) := by
  rw [← xor128_ofNat, Value.ofNat_toNat, Value.ofNat_toNat]

end Values

section Commands

variable (s : State) (x : Left)

theorem exec_shl : exec (.shl x) s = s.finish ((shiftAmount (B s)).map (shl128 (X s x))) := by
  rw [X_eq_left]
  rfl

theorem exec_shr : exec (.shr x) s = s.finish ((shiftAmount (B s)).map (shr128 (X s x))) := by
  rw [X_eq_left]
  rfl

end Commands

section Amount

variable {i : Instr} {s : State} {shift : Fin 128 → Value}

/-- A shift command completes with its shifter's result when the whole of `B` is an amount from 0 to 127 (R105). -/
theorem completes_of_shiftAmount {v : Value} (hs : exec i s = s.finish ((shiftAmount (B s)).map shift))
    (hb : (B s).toNat < 128) (hv : shift ⟨(B s).toNat, hb⟩ = v) : Completes i s v :=
  completes_of_finish hs (by rw [shiftAmount_of_lt hb, ← hv]; rfl)

/-- A shift command faults when `B` is 128 or more: the amount is not masked (R105). -/
theorem faultsWith_of_shiftAmount (hs : exec i s = s.finish ((shiftAmount (B s)).map shift))
    (hb : 128 ≤ (B s).toNat) : FaultsWith i s .shiftRange :=
  faultsWith_of_finish hs (by rw [shiftAmount_of_le hb]; rfl)

end Amount

/-- Settles O37, by cases on the range of `B`: the left shifter multiplies, and no amount is left for 128 or more. -/
theorem shlMultipliesByAPowerOfTwo : Obligations.ShlMultipliesByAPowerOfTwo := by
  refine ⟨hasWords_of_encode Laws.DecodeEncode.shl rfl rfl, fun s x => ⟨?inRange, ?outOfRange⟩⟩
  case inRange => exact fun hb => completes_of_shiftAmount (exec_shl s x) hb (shl128_eq_ofNat (X s x) _)
  case outOfRange => exact faultsWith_of_shiftAmount (exec_shl s x)

/-- Settles O38, by the same cases: the right shifter divides. -/
theorem shrDividesByAPowerOfTwo : Obligations.ShrDividesByAPowerOfTwo := by
  refine ⟨hasWords_of_encode Laws.DecodeEncode.shr rfl rfl, fun s x => ⟨?inRange, ?outOfRange⟩⟩
  case inRange => exact fun hb => completes_of_shiftAmount (exec_shr s x) hb (shr128_eq_ofNat (X s x) _)
  case outOfRange => exact faultsWith_of_shiftAmount (exec_shr s x)

/-- Settles O39: the four commands always complete, and their word-wise results are the bitwise results on the
numbers. -/
theorem bitwiseCommandsActOnEveryBit : Obligations.BitwiseCommandsActOnEveryBit := by
  refine ⟨hasWords_of_encode Laws.DecodeEncode.and rfl rfl, hasWords_of_encode Laws.DecodeEncode.or rfl rfl,
    hasWords_of_encode Laws.DecodeEncode.xor rfl rfl, hasWords_of_encode Laws.DecodeEncode.not rfl rfl,
    fun s x => ⟨?and, ?or, ?xor, ?not⟩⟩
  case and => exact completes_of_left (fun v => and128 v (B s)) rfl (and128_eq_ofNat (X s x) (B s))
  case or => exact completes_of_left (fun v => or128 v (B s)) rfl (or128_eq_ofNat (X s x) (B s))
  case xor => exact completes_of_left (fun v => xor128 v (B s)) rfl (xor128_eq_ofNat (X s x) (B s))
  case not => exact completes_of_left not128 rfl (not128_eq_ofNat (X s x))

end Sys2Proof.ShiftBitwise

/-! The proofs of the family "ordering": CMP, EQ, NE, LT, LE, GT and GE (spec/44_ordering.md R120 to R128). First the
two comparison functions as comparisons of the operands' numbers, then the commands. -/

namespace Sys2Proof.Comparison

open Sys2Proof.Machine Sys2Proof.Claims Sys2Proof.Noninterference Sys2Proof.Construction

section Results

variable {x y : Value}

theorem orderValue_cmp3_of_eq (h : x.toNat = y.toNat) : orderValue (cmp3 x y) = ⟨0, 0⟩ := by
  rw [cmp3_eq_compare, Nat.compare_eq_eq.mpr h]
  rfl

theorem orderValue_cmp3_of_gt (h : x.toNat > y.toNat) : orderValue (cmp3 x y) = ⟨1, 0⟩ := by
  rw [cmp3_eq_compare, Nat.compare_eq_gt.mpr h]
  rfl

theorem orderValue_cmp3_of_lt (h : x.toNat < y.toNat) :
    orderValue (cmp3 x y) = ⟨0xFFFFFFFFFFFFFFFF, 0xFFFFFFFFFFFFFFFF⟩ := by
  rw [cmp3_eq_compare, Nat.compare_eq_lt.mpr h]
  rfl

theorem cmp3_isLT_iff : (cmp3 x y).isLT = true ↔ x.toNat < y.toNat := by
  rw [Ordering.isLT_iff_eq_lt, cmp3_eq_lt]

theorem cmp3_isLE_iff : (cmp3 x y).isLE = true ↔ x.toNat ≤ y.toNat := by
  rw [cmp3_eq_compare, Std.isLE_compare]

theorem cmp3_isGT_iff : (cmp3 x y).isGT = true ↔ x.toNat > y.toNat := by
  rw [cmp3_eq_compare, Ordering.isGT_iff_eq_gt, Nat.compare_eq_gt]

theorem cmp3_isGE_iff : (cmp3 x y).isGE = true ↔ x.toNat ≥ y.toNat := by
  rw [cmp3_eq_compare, Std.isGE_compare]

theorem not_eq128_iff : (!eq128 x y) = true ↔ x.toNat ≠ y.toNat := by
  rw [Bool.not_eq_true', ← Bool.not_eq_true, eq128_iff]

/-- A predicate's bit is written as its truth value (R123). -/
theorem boolValue_eq_truth {b : Bool} {p : Prop} [Decidable p] (h : b = true ↔ p) : boolValue b = truth p := by
  simp only [boolValue, truth, h]

end Results

/-- A command that hands a test of its operands to the end of R49's template completes with that test's truth value. -/
theorem completes_of_test {i : Instr} {s : State} {x : Left} {p : Prop} [Decidable p] (test : Value → Value → Bool)
    (hs : exec i s = s.finish (.ok (boolValue (test (s.left x) (B s))))) (hp : test (X s x) (B s) = true ↔ p) :
    Completes i s (truth p) :=
  completes_of_left (fun v => boolValue (test v (B s))) hs (boolValue_eq_truth hp)

/-- Settles O41, by the three ways the operands' numbers can compare. -/
theorem cmpWritesTheThreeWayResult : Obligations.CmpWritesTheThreeWayResult := by
  have completes {s x v} : orderValue (cmp3 (X s x) (B s)) = v → Completes (.cmp x) s v :=
    completes_of_left (fun u => orderValue (cmp3 u (B s))) rfl
  refine ⟨hasWords_of_encode Laws.DecodeEncode.cmp rfl rfl, fun s x => ⟨?eq, ?gt, ?lt⟩⟩
  case eq => exact fun h => completes (orderValue_cmp3_of_eq h)
  case gt => exact fun h => completes (orderValue_cmp3_of_gt h)
  case lt => exact fun h => completes (orderValue_cmp3_of_lt h)

/-- Settles O42: EQ and NE test the words for equality, the other four test the three-way order, and each test decides
its comparison of the numbers. -/
theorem predicatesWriteOneOrZero : Obligations.PredicatesWriteOneOrZero := by
  refine ⟨hasWords_of_encode Laws.DecodeEncode.eq rfl rfl, hasWords_of_encode Laws.DecodeEncode.ne rfl rfl,
    hasWords_of_encode Laws.DecodeEncode.lt rfl rfl, hasWords_of_encode Laws.DecodeEncode.le rfl rfl,
    hasWords_of_encode Laws.DecodeEncode.gt rfl rfl, hasWords_of_encode Laws.DecodeEncode.ge rfl rfl,
    fun s x => ⟨?eq, ?ne, ?lt, ?le, ?gt, ?ge⟩⟩
  case eq => exact completes_of_test eq128 rfl (eq128_iff (X s x) (B s))
  case ne => exact completes_of_test (fun u v => !eq128 u v) rfl not_eq128_iff
  case lt => exact completes_of_test (fun u v => (cmp3 u v).isLT) rfl cmp3_isLT_iff
  case le => exact completes_of_test (fun u v => (cmp3 u v).isLE) rfl cmp3_isLE_iff
  case gt => exact completes_of_test (fun u v => (cmp3 u v).isGT) rfl cmp3_isGT_iff
  case ge => exact completes_of_test (fun u v => (cmp3 u v).isGE) rfl cmp3_isGE_iff

end Sys2Proof.Comparison

/-! The proofs of the family "conversion out": TRUNC.w (spec/45_conversion_out.md R130). First the narrowing as a residue
of the operand's number, then the commands. -/

namespace Sys2Proof.ConversionOut

open Sys2Proof.Machine Sys2Proof.Claims Sys2Proof.Construction

/-- The low bits of a Value's low word are the low bits of the whole Value. -/
theorem lo_mod_two_pow {n : Nat} (hn : n ≤ 64) (v : Value) : v.lo.toNat % 2 ^ n = v.toNat % 2 ^ n := by
  rw [Value.lo_toNat, Nat.mod_mod_of_dvd _ (Nat.pow_dvd_pow 2 hn)]

/-- Narrowing builds the same Value as the zero extension of the low bits (R78, R130). -/
theorem truncValue_eq_zextValue (n : Nat) (v : Value) : truncValue n v = zextValue n v := rfl

theorem truncValue_eq_ofNat {n : Nat} (hn : n ≤ 64) (v : Value) : truncValue n v = Value.ofNat (v.toNat % 2 ^ n) := by
  rw [truncValue_eq_zextValue, zextValue_eq_ofNat hn, lo_mod_two_pow hn]

/-- Settles O43: each width is the narrowing to that many bits, and no width is above the low word's 64. -/
theorem truncWritesTheLowBits : Obligations.TruncWritesTheLowBits := by
  refine ⟨hasWords_of_encode Laws.DecodeEncode.trunc8 rfl rfl, hasWords_of_encode Laws.DecodeEncode.trunc16 rfl rfl,
    hasWords_of_encode Laws.DecodeEncode.trunc32 rfl rfl, hasWords_of_encode Laws.DecodeEncode.trunc64 rfl rfl,
    fun s x => ⟨?trunc8, ?trunc16, ?trunc32, ?trunc64⟩⟩
  case trunc8 => exact completes_of_left (truncValue 8) rfl (truncValue_eq_ofNat (by decide) _)
  case trunc16 => exact completes_of_left (truncValue 16) rfl (truncValue_eq_ofNat (by decide) _)
  case trunc32 => exact completes_of_left (truncValue 32) rfl (truncValue_eq_ofNat (by decide) _)
  case trunc64 => exact completes_of_left (truncValue 64) rfl (truncValue_eq_ofNat (Nat.le_refl 64) _)

end Sys2Proof.ConversionOut

/-! The proofs of the family "text codec": the host's decimal encoding and decoding (spec/46_text_codec.md R141, R142).
First what the host reads after each command it issues, then the two digit loops and the sign. -/

namespace Sys2Proof.TextCodec

open Sys2Proof.Machine Sys2Proof.Claims Sys2Proof.Arithmetic

section Commands

variable {s : State}

/-- A command issued to an unfaulted unit is accepted and runs (R20, R49). -/
theorem issue_encode {i : Instr} (hf : s.fault = false) (hdec : Laws.DecodeEncode.Statement i) (a b : Value) :
    s.issue ⟨encode i, a, b⟩ = advanceOutcome (exec i (s.load [⟨encode i, a, b⟩])) := by
  have hacc : (s.load [⟨encode i, a, b⟩]).accepted = some (encode i) :=
    (State.accepted_eq_some _ _).mpr ⟨rfl, rfl, hf, rfl⟩
  have hrst : (s.load [⟨encode i, a, b⟩]).inp.rst = false := rfl
  have hdecode : decode (encode i) = some i := hdec
  simp [State.issue, step, hrst, hacc, hdecode]

/-- The host reads the Value a command completes with. -/
theorem readAfter_eq_of_completes {i : Instr} {a b v : Value} (hf : s.fault = false)
    (hdec : Laws.DecodeEncode.Statement i) (h : Completes i (s.load [⟨encode i, a, b⟩]) v) :
    readAfter s i a b = v := by
  rw [readAfter, issue_encode hf hdec, h, advanceOutcome_next]
  exact State.advance_r _

theorem readAfter_add (hf : s.fault = false) (a b : Value) : readAfter s (.add .portA) a b = add128 a b :=
  readAfter_eq_of_completes hf (Laws.DecodeEncode.add .portA) rfl

theorem readAfter_mul (hf : s.fault = false) (a b : Value) : readAfter s (.mul .portA) a b = mul128 a b :=
  readAfter_eq_of_completes hf (Laws.DecodeEncode.mul .portA) rfl

theorem readAfter_not (hf : s.fault = false) (a b : Value) : readAfter s (.not .portA) a b = not128 a :=
  readAfter_eq_of_completes hf (Laws.DecodeEncode.not .portA) rfl

theorem readAfter_div (hf : s.fault = false) (a : Value) {b : Value} (hb : b.toNat ≠ 0) :
    readAfter s (.div .portA) a b = Value.ofNat (a.toNat / b.toNat) :=
  readAfter_eq_of_completes hf (Laws.DecodeEncode.div .portA) ((divWritesTheQuotient.2 _ .portA).1 hb)

theorem readAfter_mod (hf : s.fault = false) (a : Value) {b : Value} (hb : b.toNat ≠ 0) :
    readAfter s (.mod .portA) a b = Value.ofNat (a.toNat % b.toNat) :=
  readAfter_eq_of_completes hf (Laws.DecodeEncode.mod .portA) ((modWritesTheRemainder.2 _ .portA).1 hb)

end Commands

section Encoding

variable {s : State}

theorem ten_toNat : ten.toNat = 10 := rfl

theorem eq_zero_iff_toNat (v : Value) : v = ⟨0, 0⟩ ↔ v.toNat = 0 := by
  rw [Value.eq_zero_iff, Value.mk.injEq]

/-- The low word of the remainder that the host reads from MOD is the last decimal digit (R141). -/
theorem readAfter_mod_ten_lo (hf : s.fault = false) (v : Value) :
    (readAfter s (.mod .portA) v ten).lo.toNat = v.toNat % 10 := by
  rw [readAfter_mod hf v (by decide), ten_toNat, Value.lo_toNat, Value.toNat_ofNat]
  omega

/-- The quotient that the host reads from DIV is the number without its last decimal digit (R141). -/
theorem readAfter_div_ten_toNat (hf : s.fault = false) (v : Value) :
    (readAfter s (.div .portA) v ten).toNat = v.toNat / 10 := by
  have hv := v.toNat_lt
  rw [readAfter_div hf v (by decide), ten_toNat, Value.toNat_ofNat]
  omega

/-- The digit loop puts the decimal digits of a number before those already found, for as many digits as it has fuel. -/
theorem encodeLoop_eq_digits (hf : s.fault = false) (fuel : Nat) (v : Value) (acc : List Char)
    (hv : v.toNat < 10 ^ fuel) :
    encodeLoop s fuel v acc = (Nat.digits 10 v.toNat).reverse.map digitChar ++ acc := by
  induction fuel generalizing v acc with
  | zero =>
    have hzero : v.toNat = 0 := by omega
    simp [encodeLoop, hzero]
  | succ fuel ih =>
    rw [encodeLoop]
    by_cases hzero : v.toNat = 0
    · rw [if_pos ((eq_zero_iff_toNat v).mpr hzero), hzero]
      simp
    · have hquot : (readAfter s (.div .portA) v ten).toNat < 10 ^ fuel := by
        rw [readAfter_div_ten_toNat hf]
        omega
      rw [if_neg (mt (eq_zero_iff_toNat v).mp hzero), ih _ _ hquot, readAfter_div_ten_toNat hf,
        readAfter_mod_ten_lo hf, Nat.digits_def' (by decide) (Nat.pos_of_ne_zero hzero)]
      simp

end Encoding

/-- Settles O48: 39 digits are enough for every Value, so the digit loop ends with all of them. -/
theorem encodeTextIsDecimal : Obligations.EncodeTextIsDecimal := by
  intro s v hf
  have hfuel : v.toNat < 10 ^ 39 := Nat.lt_trans v.toNat_lt (by decide)
  simp only [encodeText, eq_zero_iff_toNat, encodeLoop_eq_digits hf 39 v [] hfuel, List.append_nil]

section Decoding

variable {s : State} {d : Nat} {ds : List Nat}

theorem digitValue?_digitChar (hd : d < 10) : digitValue? (digitChar d) = some d := by
  revert d
  decide

theorem digitChar_ne_sign (hd : d < 10) : digitChar d ≠ '+' ∧ digitChar d ≠ '-' := by
  revert d
  decide

/-- One digit's MUL and ADD append the digit to the number read so far, modulo 2^128 (R142). -/
theorem add128_mul128_ten (n : Nat) (hd : d < 10) :
    add128 (mul128 (Value.ofNat n) ten) (valueOfWord (BitVec.ofNat 64 d)) = Value.ofNat (n * 10 + d) := by
  have hdigit : d < 2 ^ 64 := by omega
  apply Value.eq_ofNat
  rw [Primitives.valueOfWord_ofNat hdigit, add128_toNat, mul128_toNat, Value.toNat_ofNat, Value.toNat_ofNat, ten_toNat]
  omega

/-- The digit loop goes on from the number `n` of the digits before it. -/
theorem decodeDigits_eq_foldl (hf : s.fault = false) (hds : ∀ d ∈ ds, d < 10) (n : Nat) :
    decodeDigits s (ds.map digitChar) (Value.ofNat n) =
      some (Value.ofNat (ds.foldl (fun acc d => acc * 10 + d) n)) := by
  induction ds generalizing n with
  | nil => rfl
  | cons d ds ih =>
    obtain ⟨hd, hds⟩ := List.forall_mem_cons.mp hds
    simp only [List.map_cons, List.foldl_cons, decodeDigits, digitValue?_digitChar hd, readAfter_mul hf,
      readAfter_add hf, add128_mul128_ten n hd, ih hds]

theorem decodeUnsigned_eq_foldl (hf : s.fault = false) (hne : ds ≠ []) (hds : ∀ d ∈ ds, d < 10) :
    decodeUnsigned s (ds.map digitChar) = some (Value.ofNat (ds.foldl (fun acc d => acc * 10 + d) 0)) := by
  rw [decodeUnsigned, if_neg (mt List.map_eq_nil_iff.mp hne)]
  exact decodeDigits_eq_foldl hf hds 0

/-- A text that begins with a digit has no sign. -/
theorem decodeText_map_digitChar (s : State) (hds : ∀ d ∈ ds, d < 10) :
    decodeText s (ds.map digitChar) = decodeUnsigned s (ds.map digitChar) := by
  cases ds with
  | nil => rfl
  | cons d ds =>
    obtain ⟨hplus, hminus⟩ := digitChar_ne_sign (hds d List.mem_cons_self)
    simp [decodeText, hplus, hminus]

/-- The host's NOT then ADD 1 is the two's-complement negation (R80, R142). -/
theorem negText_eq_neg128 (hf : s.fault = false) (v : Value) : negText s v = neg128 v := by
  rw [negText, readAfter_not hf, readAfter_add hf, neg128]

theorem neg128_ofNat (n : Nat) : neg128 (Value.ofNat n) = ofInt (-(n : Int)) := by
  apply Construction.eq_ofInt
  rw [neg128_toNat, Value.toNat_ofNat]
  omega

end Decoding

/-- Settles O49: the three texts differ in the sign only, and what follows it is read by the one digit loop. -/
theorem decodeTextIsTheNumberModulo : Obligations.DecodeTextIsTheNumberModulo := by
  intro s ds hf hne hds n
  have hdigits : decodeUnsigned s (ds.map digitChar) = some (Value.ofNat n) := decodeUnsigned_eq_foldl hf hne hds
  refine ⟨?unsigned, ?plus, ?minus⟩
  case unsigned => rw [decodeText_map_digitChar s hds, hdigits]
  case plus => exact hdigits
  case minus => rw [decodeText, hdigits, Option.map_some, negText_eq_neg128 hf, neg128_ofNat]

end Sys2Proof.TextCodec

/-! The proofs of the family "exceptions": the faulted state and how a command ends (spec/60_exceptions.md R159, R161,
R162). First the step of a faulted unit, then a run of such steps, then the commands with their causes. -/

namespace Sys2Proof.Exceptions

open Sys2Proof.Machine Sys2Proof.Claims Sys2Proof.Primitives

section FaultedStep

variable {s : State}

theorem step_eq_applyReset (hr : s.inp.rst = true) : step s = .next s.applyReset.advance := by
  rcases step_cases s with ⟨-, hstep⟩ | ⟨hr', -⟩ | ⟨hr', -⟩
  · exact hstep
  · simp [hr] at hr'
  · simp [hr] at hr'

/-- A faulted unit out of reset accepts nothing, so its step holds the state (R161). -/
theorem step_eq_hold_of_fault (hf : s.fault = true) (hr : s.inp.rst = false) : step s = .next s.hold.advance := by
  rcases step_cases s with ⟨hr', -⟩ | ⟨-, -, hstep⟩ | ⟨-, -, hf', -⟩
  · simp [hr] at hr'
  · exact hstep
  · simp [hf] at hf'

theorem cmdReady_eq_false_of_fault (hf : s.fault = true) : s.cmdReady = false := by
  simp [State.cmdReady, hf]

/-- No reset among the host's further port values means no reset in the next step: idle ports are no reset. -/
theorem advance_rst_eq_false (hhost : ∀ p ∈ s.host, p.rst = false) : s.advance.inp.rst = false := by
  rw [State.advance_inp]
  cases hs : s.host with
  | nil => rfl
  | cons p ps => exact hhost p (by simp [hs])

end FaultedStep

/-- A run whose first step has a next state goes on from there. -/
theorem run_succ_of_step {M : Host.Core} {s t : M.State} (k : Nat) (h : M.step s = .next t) :
    M.run (k + 1) s = M.run k t := by
  rw [Host.Core.run, h]

/-- Settles O7, by cases on `rst`: a faulted unit's step is the reset, or it holds the state. -/
theorem onlyResetLeavesTheFaultedState : Obligations.OnlyResetLeavesTheFaultedState := by
  intro s t hstep hf
  cases hr : s.inp.rst with
  | true =>
    obtain rfl : s.applyReset.advance = t := Host.Outcome.next.inj ((step_eq_applyReset hr).symm.trans hstep)
    exact .inl ⟨rfl, by simp, by simp⟩
  | false =>
    obtain rfl : s.hold.advance = t := Host.Outcome.next.inj ((step_eq_hold_of_fault hf hr).symm.trans hstep)
    exact .inr ⟨rfl, by simp [hf], by simp, by simp⟩

/-- Settles O6, by induction on the number of steps: after the first, which holds the state, the unit is still faulted
and the host still presents no reset. -/
theorem faultedUnitIsStuckUntilReset : Obligations.FaultedUnitIsStuckUntilReset := by
  intro k
  induction k with
  | zero => exact fun s hf _ _ => ⟨s, rfl, rfl, hf, rfl, cmdReady_eq_false_of_fault hf⟩
  | succ k ih =>
    intro s hf hr hhost
    have hf' : s.hold.advance.fault = true := by simp [hf]
    have hr' : s.hold.advance.inp.rst = false := advance_rst_eq_false hhost
    have hhost' : ∀ p ∈ s.hold.advance.host, p.rst = false := by
      rw [State.advance_host]
      exact fun p hp => hhost p (List.mem_of_mem_tail hp)
    obtain ⟨t, hrun, hreg, hfault, hcause, hready⟩ := ih s.hold.advance hf' hr' hhost'
    refine ⟨t, ?run, ?reg, hfault, ?cause, hready⟩
    case run => exact (run_succ_of_step (M := core) k (step_eq_hold_of_fault hf hr)).trans hrun
    case reg => rw [hreg, State.advance_r, State.hold_r]
    case cause => rw [hcause, State.advance_cause, State.hold_cause]

section Ending

variable {i : Instr} {s : State}

theorem ends_of_finish_ok {v : Value} (hs : exec i s = s.finish (.ok v)) :
    (∃ v, Completes i s v) ∨ ∃ c ∈ causes i, FaultsWith i s c :=
  .inl ⟨v, completes_of_finish hs rfl⟩

/-- A command whose result carries none but its own causes ends precisely. -/
theorem ends_of_finish {e : Except Cause Value} (hs : exec i s = s.finish e)
    (hcause : ∀ c, e = .error c → c ∈ causes i) :
    (∃ v, Completes i s v) ∨ ∃ c ∈ causes i, FaultsWith i s c := by
  cases e with
  | ok v => exact ends_of_finish_ok hs
  | error c => exact .inr ⟨c, hcause c rfl, faultsWith_of_finish hs rfl⟩

end Ending

/-- Settles O11, by cases on the command: the operation that can fail answers only the command's own causes. For CVTF32
this needs the range of the exponent: `fpToU128` can answer SHIFT_RANGE, but not for a binary32 pattern. -/
theorem commandCompletesOrFaultsPrecisely : Obligations.CommandCompletesOrFaultsPrecisely := by
  intro i s
  cases i with
  | divw x =>
    refine ends_of_finish rfl fun c h => ?_
    rcases divw_error (map_error h) with rfl | rfl <;> simp [causes]
  | clz x => exact ends_of_finish rfl fun c h => by simp [causes, clz64_error (map_error h)]
  | div x | mod x => exact ends_of_finish rfl fun c h => by simp [causes, divmod128_error (map_error h)]
  | shl x | shr x => exact ends_of_finish rfl fun c h => by simp [causes, shiftAmount_error (map_error h)]
  | cvtf32 x =>
    obtain ⟨hcompletes, hfaults⟩ := Construction.cvtf32WritesTheIntegerPart.2 s x
    by_cases hexp : (X s x).lo.toNat / 2 ^ 23 % 2 ^ 8 = 255
    · exact .inr ⟨.fpNonfinite, List.mem_singleton.mpr rfl, hfaults hexp⟩
    · exact .inl ⟨_, hcompletes hexp⟩
  | cvtf64 x =>
    refine ends_of_finish rfl fun c h => ?_
    rcases fpToU128_error h with rfl | rfl <;> simp [causes]
  | mulw x | zero | set x | cvtb x | cvtu8 x | cvtu16 x | cvtu32 x | cvtu64 x | cvts8 x | cvts16 x | cvts32 x
  | cvts64 x | add x | sub x | mul x | and x | or x | xor x | not x | cmp x | eq x | ne x | lt x | le x | gt x | ge x
  | trunc8 x | trunc16 x | trunc32 x | trunc64 x | fcvt32 x | fcvt64 x => exact ends_of_finish_ok rfl

end Sys2Proof.Exceptions

/-! The proof of the family "reset": the values after reset and the readiness they give (spec/70_reset_and_hazards.md
R170, R171). -/

namespace Sys2Proof.ResetValues

open Sys2Proof.Machine

/-- On an unfaulted unit the reset port alone decides readiness (R19, R170). -/
theorem cmdReady_eq_not_rst {s : State} (hf : s.fault = false) : s.cmdReady = !s.inp.rst := by
  simp [State.cmdReady, hf]

/-- Settles O1: the values are those of the reset state, and an unfaulted unit is ready on any ports without `rst`. -/
theorem resetStateHasTheStatedValues : Obligations.ResetStateHasTheStatedValues := by
  refine ⟨rfl, rfl, rfl, rfl, fun p hr => ?ready⟩
  case ready =>
    have hfault : ({ State.reset with inp := p } : State).fault = false := rfl
    rw [cmdReady_eq_not_rst hfault, hr, Bool.not_false]

end Sys2Proof.ResetValues

/-! The proofs of the family "other", first part: the step and runs of steps (spec/10_state.md R19, R20, R24,
spec/60_exceptions.md R149, spec/70_reset_and_hazards.md R170, R178). First what each kind of step does, in the terms of
the statements, then the status invariant. -/

namespace Sys2Proof.Stepping

open Sys2Proof.Machine Sys2Proof.Claims Sys2Proof.Exceptions

section Step

variable {s : State}

/-- The model's move of the ports is the statements'. -/
theorem advance_eq_onward (t : State) : t.advance = onward t := by
  rw [State.advance, onward]
  cases t.host <;> rfl

theorem accepted_of_accepts (h : Accepts s) : s.accepted = some s.inp.cw := by
  obtain ⟨hrst, hvalid, hfault⟩ := h
  exact (State.accepted_eq_some s _).mpr ⟨hrst, hvalid, hfault, rfl⟩

/-- An accepted command that decodes is executed (R49). -/
theorem step_eq_exec (h : Accepts s) {i : Instr} (hdec : decode s.inp.cw = some i) :
    step s = advanceOutcome (exec i s) := by
  simp [step, h.1, accepted_of_accepts h, hdec]

/-- An accepted command that does not decode raises ILLEGAL_CMD (R47, R150). -/
theorem step_eq_raise (h : Accepts s) (hdec : decode s.inp.cw = none) :
    step s = .next (s.raise .illegalCmd).advance := by
  simp [step, h.1, accepted_of_accepts h, hdec]

/-- A step that accepts nothing holds the state (R20, R161). -/
theorem step_eq_hold (hr : s.inp.rst = false) (h : s.inp.cmdValid = false ∨ s.fault = true) :
    step s = .next s.hold.advance := by
  have hacc : s.accepted = none := (State.accepted_eq_none s).mpr (.inr h)
  simp [step, hr, hacc]

theorem exec_next (i : Instr) (s : State) : ∃ t, exec i s = .next t := by
  rcases exec_cases i s with ⟨v, h⟩ | ⟨c, -, h⟩
  · exact ⟨_, h⟩
  · exact ⟨_, h⟩

theorem step_next (s : State) : ∃ t, step s = .next t := by
  rcases step_cases s with ⟨-, h⟩ | ⟨-, -, h⟩ | ⟨-, -, -, ⟨v, h⟩ | ⟨c, -, h⟩⟩
  · exact ⟨_, h⟩
  · exact ⟨_, h⟩
  · exact ⟨_, h⟩
  · exact ⟨_, h⟩

end Step

section Status

variable {s t : State}

/-- The invariant is about `FAULT` and `CAUSE` alone (R24). -/
theorem statusOk_of_eq (hs : s.StatusOk) (hf : t.fault = s.fault) (hc : t.cause = s.cause) : t.StatusOk := by
  rw [State.StatusOk, hf, hc]
  exact hs

theorem statusOk_of_reset (hf : t.fault = false) (hc : t.cause = .none) : t.StatusOk := by
  rw [State.StatusOk, hf, hc]
  decide

/-- Every cause but NONE has a code from 1 to 6 (R149). -/
theorem code_bounds {c : Cause} (hc : c ≠ .none) : 1 ≤ c.code.toNat ∧ c.code.toNat ≤ 6 := by
  cases c with
  | none => exact absurd rfl hc
  | illegalCmd | divZero | divwOverflow | shiftRange | fpNonfinite | clzZero => decide

theorem statusOk_of_raise (hf : t.fault = true) (hc : t.cause ≠ .none) : t.StatusOk :=
  ⟨fun hf' => absurd hf' (by simp [hf]), fun _ => code_bounds hc⟩

end Status

/-- Settles O9, by the four things a step can do: a reset and a raised fault establish the invariant, a held state and a
completed command keep `FAULT` and `CAUSE`. -/
theorem stepKeepsTheStatusInvariant : Obligations.StepKeepsTheStatusInvariant := by
  intro s t hs hstep
  rcases step_cases s with ⟨-, h⟩ | ⟨-, -, h⟩ | ⟨-, -, -, ⟨v, h⟩ | ⟨c, hc, h⟩⟩ <;>
    obtain rfl := Host.Outcome.next.inj (h.symm.trans hstep)
  case inl => exact statusOk_of_reset (by simp) (by simp)
  case inr.inl => exact statusOk_of_eq hs (by simp) (by simp)
  case inr.inr.inl => exact statusOk_of_eq hs (by simp) (by simp)
  case inr.inr.inr => exact statusOk_of_raise (by simp) (by simpa using hc)

/-- Settles O10: the reset values are those of an unfaulted unit without a cause. -/
theorem resetMeetsTheStatusInvariant : Obligations.ResetMeetsTheStatusInvariant :=
  statusOk_of_reset rfl rfl

/-- Settles O8, by induction on the number of steps: every step has a next state. -/
theorem everyRunGoesOn : Obligations.EveryRunGoesOn := by
  intro k
  induction k with
  | zero => exact fun s => ⟨s, rfl⟩
  | succ k ih =>
    intro s
    obtain ⟨t, hstep⟩ := step_next s
    obtain ⟨u, hrun⟩ := ih t
    exact ⟨u, (run_succ_of_step (M := core) k hstep).trans hrun⟩

/-- Settles O2: `rst` takes readiness away, and the step is the reset. -/
theorem resetStepClearsTheUnit : Obligations.ResetStepClearsTheUnit := by
  intro s hr
  refine ⟨by simp [State.cmdReady, hr], ?step⟩
  case step =>
    rw [step_eq_applyReset hr, advance_eq_onward]
    rfl

/-- Settles O3: the executed instruction has a next state, from which the ports move on. -/
theorem stepRunsTheDecodedCommand : Obligations.StepRunsTheDecodedCommand := by
  intro s i hacc hdec
  obtain ⟨t, hexec⟩ := exec_next i s
  refine ⟨t, hexec, ?step⟩
  case step => rw [step_eq_exec hacc hdec, hexec, advanceOutcome_next, advance_eq_onward]

/-- Settles O5: the held state differs from the old one in `done` alone. -/
theorem unacceptedStepHoldsTheState : Obligations.UnacceptedStepHoldsTheState := by
  intro s hr h
  rw [step_eq_hold hr h, advance_eq_onward]
  rfl

/-- Settles O13: the codes are those of `Cause.code`'s table. -/
theorem causeCodesAreTheStatedNumbers : Obligations.CauseCodesAreTheStatedNumbers :=
  ⟨rfl, rfl, rfl, rfl, rfl, rfl, rfl⟩

end Sys2Proof.Stepping

/-! Second part: the control word (spec/30_encoding.md R41 to R43, R47). The key fact is that the control words of a
table row are the words the encoder writes for the row's instructions; the decoder and the illegal words follow. -/

namespace Sys2Proof.ControlWords

open Sys2Proof.Machine Sys2Proof.Claims

section Rows

variable {cw : ControlWord} {row : OpRow}

/-- Every row's mask either looks at all bits, with an instruction without an `acc` form, or leaves out bit 10, which
the encoder then sets for `acc` = 1 (R41). -/
theorem row_forms : ∀ row ∈ opTable,
    (row.mask = 0xFFFF ∧ encode (row.make .portA) = row.pattern ∧ encode (row.make .regR) = row.pattern) ∨
    (row.mask = ~~~BitVec.twoPow 16 10 ∧ encode (row.make .portA) = row.pattern ∧
      encode (row.make .regR) = row.pattern ||| BitVec.twoPow 16 10) := by
  decide

/-- A control word is its bits but `acc`, and `acc` in bit 10 (R41). -/
theorem eq_or_acc (cw : ControlWord) :
    cw = (cw &&& ~~~BitVec.twoPow 16 10) ||| (if cwAcc cw then BitVec.twoPow 16 10 else 0) := by
  have hall : BitVec.allOnes 16 = ~~~BitVec.twoPow 16 10 ||| BitVec.twoPow 16 10 := by decide
  calc cw = cw &&& BitVec.allOnes 16 := BitVec.and_allOnes.symm
    _ = (cw &&& ~~~BitVec.twoPow 16 10) ||| (cw &&& BitVec.twoPow 16 10) := by rw [hall, BitVec.and_or_distrib_left]
    _ = _ := by rw [BitVec.and_twoPow]; rfl

/-- A word of a row is the one the encoder writes for the row's instruction with the left operand `acc` selects. -/
theorem encode_of_hits (hrow : row ∈ opTable) (h : row.hits cw = true) :
    encode (row.make (leftOfAcc (cwAcc cw))) = cw := by
  have hmatch : cw &&& row.mask = row.pattern := by simpa [OpRow.hits] using h
  rcases row_forms row hrow with ⟨hmask, hA, hR⟩ | ⟨hmask, hA, hR⟩
  · have hcw : cw = row.pattern := by
      rw [← hmatch, hmask]
      exact BitVec.and_allOnes.symm
    cases cwAcc cw
    · exact hA.trans hcw.symm
    · exact hR.trans hcw.symm
  · have hcw := eq_or_acc cw
    rw [← hmask, hmatch] at hcw
    cases hacc : cwAcc cw
    · rw [hacc] at hcw
      exact hA.trans (by simpa using hcw.symm)
    · rw [hacc] at hcw
      exact hR.trans (by simpa using hcw.symm)

/-- Two rows differ in a bit that both masks look at (R47). -/
theorem opTable_pairwise :
    opTable.Pairwise fun p q => p.pattern &&& q.mask ≠ q.pattern &&& p.mask := by
  decide

theorem not_hits_both {p q : OpRow} (h : p.pattern &&& q.mask ≠ q.pattern &&& p.mask) :
    ¬ (p.hits cw = true ∧ q.hits cw = true) := by
  rintro ⟨hp, hq⟩
  simp only [OpRow.hits, beq_iff_eq] at hp hq
  apply h
  rw [← hp, ← hq, BitVec.and_assoc, BitVec.and_assoc, BitVec.and_comm p.mask]

/-- No control word belongs to two rows. -/
theorem filter_hits_length_le (cw : ControlWord) : (opTable.filter (·.hits cw)).length ≤ 1 := by
  have hpair := opTable_pairwise.filter (·.hits cw)
  have hmem : ∀ row ∈ opTable.filter (·.hits cw), row.hits cw = true := fun row h => (List.mem_filter.mp h).2
  cases hrows : opTable.filter (·.hits cw) with
  | nil => simp
  | cons p rows =>
    cases rows with
    | nil => simp
    | cons q rows =>
      rw [hrows] at hpair hmem
      exact absurd ⟨hmem p (by simp), hmem q (by simp)⟩ (not_hits_both (List.rel_of_pairwise_cons hpair (by simp)))

end Rows

section Decoder

variable {cw : ControlWord} {i : Instr}

/-- The encoder's word decodes to its instruction, with every operand form: the per-instruction laws in one. -/
theorem decode_encode (i : Instr) : decode (encode i) = some i := by
  cases i with
  | mulw x => exact Laws.DecodeEncode.mulw x
  | divw x => exact Laws.DecodeEncode.divw x
  | clz x => exact Laws.DecodeEncode.clz x
  | zero => exact Laws.DecodeEncode.zero
  | set x => exact Laws.DecodeEncode.set x
  | cvtb x => exact Laws.DecodeEncode.cvtb x
  | cvtu8 x => exact Laws.DecodeEncode.cvtu8 x
  | cvtu16 x => exact Laws.DecodeEncode.cvtu16 x
  | cvtu32 x => exact Laws.DecodeEncode.cvtu32 x
  | cvtu64 x => exact Laws.DecodeEncode.cvtu64 x
  | cvts8 x => exact Laws.DecodeEncode.cvts8 x
  | cvts16 x => exact Laws.DecodeEncode.cvts16 x
  | cvts32 x => exact Laws.DecodeEncode.cvts32 x
  | cvts64 x => exact Laws.DecodeEncode.cvts64 x
  | cvtf32 x => exact Laws.DecodeEncode.cvtf32 x
  | cvtf64 x => exact Laws.DecodeEncode.cvtf64 x
  | add x => exact Laws.DecodeEncode.add x
  | sub x => exact Laws.DecodeEncode.sub x
  | mul x => exact Laws.DecodeEncode.mul x
  | div x => exact Laws.DecodeEncode.div x
  | mod x => exact Laws.DecodeEncode.mod x
  | shl x => exact Laws.DecodeEncode.shl x
  | shr x => exact Laws.DecodeEncode.shr x
  | and x => exact Laws.DecodeEncode.and x
  | or x => exact Laws.DecodeEncode.or x
  | xor x => exact Laws.DecodeEncode.xor x
  | not x => exact Laws.DecodeEncode.not x
  | cmp x => exact Laws.DecodeEncode.cmp x
  | eq x => exact Laws.DecodeEncode.eq x
  | ne x => exact Laws.DecodeEncode.ne x
  | lt x => exact Laws.DecodeEncode.lt x
  | le x => exact Laws.DecodeEncode.le x
  | gt x => exact Laws.DecodeEncode.gt x
  | ge x => exact Laws.DecodeEncode.ge x
  | trunc8 x => exact Laws.DecodeEncode.trunc8 x
  | trunc16 x => exact Laws.DecodeEncode.trunc16 x
  | trunc32 x => exact Laws.DecodeEncode.trunc32 x
  | trunc64 x => exact Laws.DecodeEncode.trunc64 x
  | fcvt32 x => exact Laws.DecodeEncode.fcvt32 x
  | fcvt64 x => exact Laws.DecodeEncode.fcvt64 x

/-- What the decoder reads from a word encodes to that word. -/
theorem encode_of_decode (h : decode cw = some i) : encode i = cw := by
  obtain ⟨row, hfind, rfl⟩ := Option.map_eq_some_iff.mp h
  have hhits : row.hits cw = true := List.find?_some (p := (OpRow.hits · cw)) hfind
  exact encode_of_hits (List.mem_of_find?_eq_some hfind) hhits

theorem decode_eq_none_iff_filter : decode cw = none ↔ opTable.filter (·.hits cw) = [] := by
  rw [decode, Option.map_eq_none_iff, List.find?_eq_none, List.filter_eq_nil_iff]

end Decoder

section Legality

variable {cw : ControlWord} {row : OpRow}

/-- No condition of R47 holds of a word that a row's instruction is encoded as. -/
theorem not_illegal_encode_row : ∀ row ∈ opTable,
    ¬ Illegal (encode (row.make .portA)) ∧ ¬ Illegal (encode (row.make .regR)) := by
  unfold Illegal
  decide

theorem not_illegal_of_hits (hrow : row ∈ opTable) (h : row.hits cw = true) : ¬ Illegal cw := by
  obtain ⟨hA, hR⟩ := not_illegal_encode_row row hrow
  rw [← encode_of_hits hrow h]
  cases cwAcc cw
  · exact hA
  · exact hR

/-- The opcode table has a row for every combination of the fields that R47 leaves legal. -/
theorem exists_row_of_fields : ∀ op ∈ ops, ∀ w < 4, ∀ acc < 2,
    (w ≠ 0 → op ∈ [0x13, 0x14, 0x50]) → ¬ (acc = 1 ∧ op = 0x10) →
      ∃ row ∈ opTable, row.hits (BitVec.ofNat 16 (acc * 1024 + w * 256 + op)) = true := by
  decide

theorem exists_row_of_not_illegal (h : ¬ Illegal cw) : ∃ row ∈ opTable, row.hits cw = true := by
  simp only [Illegal, not_or, not_not, ne_eq] at h
  obtain ⟨hop, hrsv, hwidth, hacc⟩ := h
  obtain ⟨row, hrow, hhits⟩ := exists_row_of_fields _ hop (cw.toNat / 256 % 4) (by omega) (cw.toNat / 1024 % 2)
    (by omega) (fun hw => by_contra fun hc => hwidth ⟨hw, hc⟩) hacc
  have hfields : cw.toNat / 1024 % 2 * 1024 + cw.toNat / 256 % 4 * 256 + cw.toNat % 256 = cw.toNat := by omega
  rw [hfields, BitVec.ofNat_toNat, BitVec.setWidth_eq] at hhits
  exact ⟨row, hrow, hhits⟩

/-- A control word is illegal exactly when no row of the opcode table has it. -/
theorem illegal_iff_filter (cw : ControlWord) : Illegal cw ↔ opTable.filter (·.hits cw) = [] := by
  rw [List.filter_eq_nil_iff]
  constructor
  · exact fun hill row hrow hhits => not_illegal_of_hits hrow hhits hill
  · intro hnone
    by_contra hlegal
    obtain ⟨row, hrow, hhits⟩ := exists_row_of_not_illegal hlegal
    exact hnone row hrow hhits

end Legality

/-- Settles O15: the decoder undoes the encoder for every instruction, and what it reads encodes to what it read. -/
theorem decodeAndEncodeAgree : Obligations.DecodeAndEncodeAgree := by
  intro cw i
  constructor
  · exact encode_of_decode
  · rintro rfl
    exact decode_encode i

/-- Settles O16: both say that no row of the opcode table has the word. -/
theorem decoderRejectsExactlyIllegalWords : Obligations.DecoderRejectsExactlyIllegalWords := by
  intro cw
  rw [decode_eq_none_iff_filter, illegal_iff_filter]

/-- Settles O17: a word's rows are at most one, and they are none exactly when it is illegal. -/
theorem everyWordHasOneRowOrIsIllegal : Obligations.EveryWordHasOneRowOrIsIllegal := by
  intro cw
  change ((opTable.filter (·.hits cw)).length = 1 ∧ ¬ Illegal cw) ∨ (opTable.filter (·.hits cw) = [] ∧ Illegal cw)
  rw [illegal_iff_filter]
  by_cases hnone : opTable.filter (·.hits cw) = []
  · exact .inr ⟨hnone, hnone⟩
  · have hpos := List.length_pos_of_ne_nil hnone
    have hle := filter_hits_length_le cw
    exact .inl ⟨by omega, hnone⟩

/-- Settles O18, each word by reading it: fourteen closed facts about the decoder. -/
theorem sampleControlWordsDecode : Obligations.SampleControlWordsDecode :=
  ⟨rfl, rfl, rfl, rfl, rfl, rfl, rfl, rfl, rfl, rfl, rfl, rfl, rfl, rfl⟩

/-- Settles O4: an illegal word does not decode, so its step raises ILLEGAL_CMD before any operand is read. -/
theorem illegalControlWordFaults : Obligations.IllegalControlWordFaults := by
  intro s hacc hill
  have hdec : decode s.inp.cw = none := (decoderRejectsExactlyIllegalWords s.inp.cw).mpr hill
  rw [Stepping.step_eq_raise hacc hdec, Stepping.advance_eq_onward]
  rfl

end Sys2Proof.ControlWords

/-! Third part: fields put side by side, as numbers: the port `r`, the 272-bit command string and the floating-point
patterns (spec/10_state.md R19, spec/30_encoding.md R40, spec/40_primitives.md R69). -/

namespace Sys2Proof.BitFields

open Sys2Proof.Machine Sys2Proof.Claims

/-- Two fields side by side are a number in the place-value system of the lower field's width. -/
theorem append_toNat {m n : Nat} (u : BitVec m) (v : BitVec n) : (u ++ v).toNat = u.toNat * 2 ^ n + v.toNat := by
  rw [BitVec.toNat_append, ← Nat.shiftLeft_add_eq_or_of_lt v.isLt, Nat.shiftLeft_eq]

section Values

variable (v : Value)

/-- A port's 128 bits are the Value's number (R18). -/
theorem bits_toNat : v.bits.toNat = v.toNat := by
  rw [Value.bits, append_toNat, Value.toNat, Nat.add_comm]

theorem valueOfBits_bits : valueOfBits v.bits = v := by
  rw [valueOfBits, Value.bits, BitVec.extractLsb'_append_eq_right, BitVec.extractLsb'_append_eq_left]

end Values

section Patterns

theorem fjoin32_toNat_fields (f : FpFields) :
    (fjoin32 f).toNat = f.sign.toNat * 2 ^ 31 + (f.exp % 2 ^ 8 * 2 ^ 23 + f.man.toNat % 2 ^ 23) := by
  rw [fjoin32, append_toNat, append_toNat, BitVec.toNat_ofBool, BitVec.toNat_ofNat, BitVec.toNat_setWidth]

theorem fjoin64_toNat_fields (f : FpFields) :
    (fjoin64 f).toNat = f.sign.toNat * 2 ^ 63 + (f.exp % 2 ^ 11 * 2 ^ 52 + f.man.toNat % 2 ^ 52) := by
  rw [fjoin64, append_toNat, append_toNat, BitVec.toNat_ofBool, BitVec.toNat_ofNat, BitVec.toNat_setWidth]

theorem fsplit32_sign_toNat (u : BitVec 32) : (fsplit32 u).sign.toNat = u.toNat / 2 ^ 31 % 2 := by
  rw [Construction.fsplit32_sign]
  rcases Nat.mod_two_eq_zero_or_one (u.toNat / 2 ^ 31) with h | h <;> rw [h] <;> rfl

theorem fsplit64_sign_toNat (u : BitVec 64) : (fsplit64 u).sign.toNat = u.toNat / 2 ^ 63 % 2 := by
  rw [Construction.fsplit64_sign]
  rcases Nat.mod_two_eq_zero_or_one (u.toNat / 2 ^ 63) with h | h <;> rw [h] <;> rfl

theorem fjoin32_fsplit32 (u : BitVec 32) : fjoin32 (fsplit32 u) = u := by
  have hu := u.isLt
  apply BitVec.eq_of_toNat_eq
  rw [fjoin32_toNat_fields, fsplit32_sign_toNat, fsplit32_exp, fsplit32_man]
  omega

theorem fjoin64_fsplit64 (u : BitVec 64) : fjoin64 (fsplit64 u) = u := by
  have hu := u.isLt
  apply BitVec.eq_of_toNat_eq
  rw [fjoin64_toNat_fields, fsplit64_sign_toNat, fsplit64_exp, fsplit64_man]
  omega

end Patterns

/-- Settles O19: the fields of the string are `CW`, `B` and `A` in their places, and each is cut out again. -/
theorem commandStringHoldsTheThreeFields : Obligations.CommandStringHoldsTheThreeFields := by
  intro c
  refine ⟨?number, ?fields⟩
  case number =>
    rw [Command.bits, append_toNat, append_toNat, bits_toNat, bits_toNat, Nat.add_assoc]
  case fields =>
    have hcw : c.bits.extractLsb' 256 16 = c.cw := BitVec.extractLsb'_append_eq_left
    have hb : c.bits.extractLsb' 128 128 = c.b.bits := by
      rw [Command.bits, BitVec.extractLsb'_append_eq_of_add_le (by decide), BitVec.extractLsb'_append_eq_left]
    have ha : c.bits.extractLsb' 0 128 = c.a.bits := by
      rw [Command.bits, BitVec.extractLsb'_append_eq_of_add_le (by decide), BitVec.extractLsb'_append_eq_right]
    rw [Command.ofBits, hcw, hb, ha, valueOfBits_bits, valueOfBits_bits]

/-- Settles O14: every port is a field of the state, `r` the 128 bits of `R`, and readiness is R19's and R170's. -/
theorem outputPortsShowTheState : Obligations.OutputPortsShowTheState := by
  intro s
  refine ⟨bits_toNat s.r, rfl, rfl, rfl, ?ready⟩
  case ready => simp [State.outputs, State.cmdReady]

/-- Settles O25, for both formats: the three fields tile the pattern. -/
theorem fieldJoinInvertsFieldSplit : Obligations.FieldJoinInvertsFieldSplit :=
  ⟨fjoin32_fsplit32, fjoin64_fsplit64⟩

end Sys2Proof.BitFields

/-! Fourth part: what the host issues (spec/30_encoding.md R50, R51): the assembler's lines, then the
pseudo-instructions as runs of their commands. -/

namespace Sys2Proof.HostPrograms

open Sys2Proof.Machine Sys2Proof.Claims

section Assembler

variable {l : AsmLine}

theorem leftOk_iff {x : Left} (hx : l.instr.left? = some x) : l.leftOk = true ↔ (l.left.isSome ↔ x = .portA) := by
  rw [AsmLine.leftOk, hx, beq_iff_eq, Bool.eq_iff_iff, beq_iff_eq, Option.some_inj]

theorem leftOk_iff_eq_none (hx : l.instr.left? = none) : l.leftOk = true ↔ l.left = none := by
  simp [AsmLine.leftOk, hx]

theorem rightOk_iff_isSome (hb : l.instr.isBinary = true) : l.rightOk = true ↔ l.right.isSome := by
  rw [AsmLine.rightOk, hb, beq_true]

theorem rightOk_iff_eq_none (hb : l.instr.isBinary = false) : l.rightOk = true ↔ l.right = none := by
  simp [AsmLine.rightOk, hb]

/-- The two descriptions of the lines that R50 admits agree, on the binary operations, on the others, and on ZERO. -/
theorem wellFormed_iff_admitted (l : AsmLine) : l.wellFormed = true ↔ Admitted l := by
  rw [AsmLine.wellFormed, Bool.and_eq_true]
  obtain ⟨i, left, right⟩ := l
  cases i with
  | mulw x | divw x | add x | sub x | mul x | div x | mod x | shl x | shr x | and x | or x | xor x | cmp x | eq x
  | ne x | lt x | le x | gt x | ge x => exact and_congr (leftOk_iff rfl) (rightOk_iff_isSome rfl)
  | clz x | set x | cvtb x | cvtu8 x | cvtu16 x | cvtu32 x | cvtu64 x | cvts8 x | cvts16 x | cvts32 x | cvts64 x
  | cvtf32 x | cvtf64 x | not x | trunc8 x | trunc16 x | trunc32 x | trunc64 x | fcvt32 x | fcvt64 x =>
    exact and_congr (leftOk_iff rfl) (rightOk_iff_eq_none rfl)
  | zero => exact and_congr (leftOk_iff_eq_none rfl) (rightOk_iff_eq_none rfl)

end Assembler

/-- Settles O20: a well-formed line's command holds the word the encoder writes for its operation. -/
theorem assemblerEncodesItsLine : Obligations.AssemblerEncodesItsLine := by
  intro l
  rw [← wellFormed_iff_admitted]
  refine ⟨?admitted, fun hwf => if_neg hwf⟩
  case admitted =>
    exact fun hwf => ⟨⟨encode l.instr, l.left.getD ⟨0, 0⟩, l.right.getD ⟨0, 0⟩⟩, if_pos hwf,
      ControlWords.decode_encode l.instr, rfl, rfl⟩

section Runs

variable {s : State}

/-- After a command of a list has completed, the rest of the list is on the ports (log 2, log 3). -/
theorem complete_load_cons_advance (s : State) (c : Command) (cs : List Command) (v : Value) :
    ((s.load (c :: cs)).complete v).advance = (s.complete v).load cs := by
  cases cs <;> rfl

/-- The first command of a list is accepted by an unfaulted unit, and when it completes the unit goes on to the others
(R20, R49). -/
theorem step_load_cons {i : Instr} {a b v : Value} {cs : List Command} (hf : s.fault = false)
    (h : Completes i (s.load (⟨encode i, a, b⟩ :: cs)) v) :
    step (s.load (⟨encode i, a, b⟩ :: cs)) = .next ((s.complete v).load cs) := by
  have hacc : Accepts (s.load (⟨encode i, a, b⟩ :: cs)) := ⟨rfl, rfl, hf⟩
  rw [Stepping.step_eq_exec hacc (ControlWords.decode_encode i), h, advanceOutcome_next]
  exact congrArg _ (complete_load_cons_advance s _ cs v)

theorem run_load_cons {i : Instr} {a b v : Value} {cs : List Command} (hf : s.fault = false)
    (h : Completes i (s.load (⟨encode i, a, b⟩ :: cs)) v) (k : Nat) :
    core.run (k + 1) (s.load (⟨encode i, a, b⟩ :: cs)) = core.run k ((s.complete v).load cs) :=
  Exceptions.run_succ_of_step (M := core) (s := s.load (⟨encode i, a, b⟩ :: cs)) k (step_load_cons hf h)

variable {p : Pseudo}

/-- A pseudo-instruction of one command computes what the command completes with. -/
theorem computes_of_one {i : Instr} {a b v : Value} (hf : s.fault = false) (hlen : (expand p).length = 1)
    (hcmds : commandsOf p = [⟨encode i, a, b⟩]) (h : Completes i (s.load [⟨encode i, a, b⟩]) v) : Computes p s v := by
  refine ⟨(s.complete v).load [], ?_, rfl, rfl, rfl⟩
  rw [hlen, hcmds]
  exact run_load_cons hf h 0

/-- A pseudo-instruction of two commands computes what the second completes with after the first. -/
theorem computes_of_two {i j : Instr} {a b a' b' u v : Value} (hf : s.fault = false) (hlen : (expand p).length = 2)
    (hcmds : commandsOf p = [⟨encode i, a, b⟩, ⟨encode j, a', b'⟩])
    (h : Completes i (s.load [⟨encode i, a, b⟩, ⟨encode j, a', b'⟩]) u)
    (h' : Completes j ((s.complete u).load [⟨encode j, a', b'⟩]) v) : Computes p s v := by
  refine ⟨((s.complete u).complete v).load [], ?_, rfl, rfl, rfl⟩
  rw [hlen, hcmds]
  exact (run_load_cons hf h 1).trans (run_load_cons (s := s.complete u) hf h' 0)

end Runs

section Values

/-- MAX's two commands, ZERO and NOT, give all ones (R51). -/
theorem not128_zero : not128 ⟨0, 0⟩ = Value.ofNat (2 ^ 128 - 1) := by
  rw [ShiftBitwise.not128_eq_ofNat]
  rfl

/-- NEG's two commands, NOT and ADD 1, are the two's-complement negation (R51, R80). -/
theorem neg128_eq_ofNat (v : Value) : neg128 v = Value.ofNat (2 ^ 128 - v.toNat) :=
  Value.eq_ofNat (neg128_toNat v)

/-- DEC's subtraction of 1 is the addition of `2^128 − 1`, modulo 2^128. -/
theorem sub128_one (v : Value) : sub128 v ⟨1, 0⟩ = Value.ofNat (v.toNat + (2 ^ 128 - 1)) := by
  apply Value.eq_ofNat
  rw [sub128_toNat, show (Value.mk 1 0).toNat = 1 from rfl]
  omega

end Values

/-- Settles O21: each pseudo-instruction's commands complete, one after the other, with the stated values. -/
theorem pseudoInstructionsComputeTheirMeaning : Obligations.PseudoInstructionsComputeTheirMeaning := by
  intro s hf
  refine ⟨?min, ?max, ?neg, ?mov, ?inc, ?dec, fun i left w => rfl⟩
  case min => exact computes_of_one (i := .zero) hf rfl rfl rfl
  case max =>
    rw [← not128_zero]
    exact computes_of_two (i := .zero) (j := .not .regR) hf rfl rfl rfl rfl
  case neg =>
    intro left
    rw [← neg128_eq_ofNat]
    cases left with
    | reg => exact computes_of_two (i := .not .regR) (j := .add .regR) hf rfl rfl rfl rfl
    | lit v => exact computes_of_two (i := .not .portA) (j := .add .regR) hf rfl rfl rfl rfl
  case mov => exact fun v => computes_of_one (i := .set .portA) hf rfl rfl rfl
  case inc =>
    rw [← show (Value.mk 1 0).toNat = 1 from rfl, ← Arithmetic.add128_eq_ofNat]
    exact computes_of_one (i := .add .regR) hf rfl rfl rfl
  case dec =>
    rw [← sub128_one]
    exact computes_of_one (i := .sub .regR) hf rfl rfl rfl

end Sys2Proof.HostPrograms

/-! Fifth part: what the single operations add up to: the long division's loop (spec/42_arithmetic.md R98, R99), a shift
and the shift back (spec/43_shift_bitwise.md R114), the text codec there and back (spec/46_text_codec.md R145), and the
table of causes over all operations (spec/60_exceptions.md R149). -/

namespace Sys2Proof.Composition

open Sys2Proof.Machine Sys2Proof.Claims Sys2Proof.Primitives

section LongDivision

variable {a d : Value} {cd ca : Fin 64}

theorem toNat_pos_of_hi (hhi : d.hi ≠ 0) : 0 < d.toNat := by
  rw [Nat.pos_iff_ne_zero]
  exact fun h => hhi ((Value.eq_zero_iff d).mp h).2

/-- On the branch that divides, the division is its loop on the aligned divisor (R98). -/
theorem divmodLong_eq_loop (hle : d.toNat ≤ a.toNat) (hd : clz64 d.hi = .ok cd) (ha : clz64 a.hi = .ok ca) :
    divmodLong a d =
      .ok (⟨(longLoop (cd.val - ca.val + 1) a (shl128 d ⟨cd.val - ca.val, by omega⟩) 0).1, 0⟩,
        (longLoop (cd.val - ca.val + 1) a (shl128 d ⟨cd.val - ca.val, by omega⟩) 0).2) := by
  have hcmp : ¬ cmp3 a d = .lt := by
    rw [cmp3_eq_lt]
    omega
  rw [divmodLong, if_neg hcmp, hd, ha]
  rfl

/-- The loop divides when the aligned divisor loses no bit and the dividend is below twice it (R99). -/
theorem longLoop_aligned {n : Nat} (hn : n < 64) (hd : 0 < d.toNat) (hfit : d.toNat * 2 ^ n < 2 ^ 128)
    (hbound : a.toNat < d.toNat * 2 ^ (n + 1)) :
    (longLoop (n + 1) a (shl128 d ⟨n, by omega⟩) 0).1.toNat = a.toNat / d.toNat ∧
      (longLoop (n + 1) a (shl128 d ⟨n, by omega⟩) 0).2.toNat = a.toNat % d.toNat := by
  have haligned : (shl128 d ⟨n, by omega⟩).toNat = d.toNat * 2 ^ n := by
    rw [shl128_toNat]
    exact Nat.mod_eq_of_lt hfit
  have hroom : ((0 : Word).toNat + 1) * 2 ^ (n + 1) ≤ 2 ^ 64 := by
    rw [show (0 : Word).toNat + 1 = 1 from rfl, Nat.one_mul]
    exact Nat.pow_le_pow_right (by decide) hn
  obtain ⟨hq, hr⟩ := longLoop_spec d.toNat hd (n + 1) a (shl128 d ⟨n, by omega⟩) 0 hbound
    (fun m hm => by rw [haligned, Nat.succ.inj hm]) hroom
  exact ⟨by simpa using hq, hr⟩

end LongDivision

/-- Settles O36: `align_spec` gives the counts and what the loop needs. -/
theorem longDivisionTakesAtMost64Iterations : Obligations.LongDivisionTakesAtMost64Iterations := by
  intro a d hhi hle
  obtain ⟨cd, ca, hd, ha, hcount, hfit, hbound⟩ := align_spec hhi hle
  exact ⟨cd, ca, hd, ha, hcount, by omega, divmodLong_eq_loop hle hd ha,
    longLoop_aligned (by omega) (toNat_pos_of_hi hhi) hfit hbound⟩

section Shifts

variable (x : Value) (s : Fin 128)

theorem shr128_shl128_toNat : (shr128 (shl128 x s) s).toNat = x.toNat % 2 ^ (128 - s.val) := by
  rw [shr128_toNat, shl128_toNat, mul_two_pow_mod_two_pow _ (Nat.le_of_lt s.isLt),
    Nat.mul_div_cancel _ (Nat.two_pow_pos _)]

theorem shl128_shr128_toNat : (shl128 (shr128 x s) s).toNat = x.toNat - x.toNat % 2 ^ s.val := by
  have hsplit := Nat.div_add_mod' x.toNat (2 ^ s.val)
  have hlt := x.toNat_lt
  rw [shl128_toNat, shr128_toNat, Nat.mod_eq_of_lt (by omega)]
  omega

end Shifts

/-- Settles O40: the bits shifted out are the residue that the shift back does not return. -/
theorem shiftThereAndBackClearsBits : Obligations.ShiftThereAndBackClearsBits := by
  intro x s
  refine ⟨?leftThenRight, ?small, ?rightThenLeft⟩
  case leftThenRight => rw [← shr128_shl128_toNat, Value.ofNat_toNat]
  case small =>
    intro hx
    apply Value.ext_toNat
    rw [shr128_shl128_toNat, Nat.mod_eq_of_lt hx]
  case rightThenLeft => rw [← shl128_shr128_toNat, Value.ofNat_toNat]

section TextCodec

/-- Reading the digits of a number, most significant first, gives the number. -/
theorem foldl_reverse_digits (n : Nat) :
    (Nat.digits 10 n).reverse.foldl (fun acc d => acc * 10 + d) 0 = n := by
  rw [List.foldl_reverse]
  conv_rhs => rw [← Nat.ofDigits_digits 10 n, Nat.ofDigits_eq_foldr]
  simp only [Nat.cast_id, Nat.mul_comm, Nat.add_comm]

/-- The text of 0 is the one digit that `Nat.digits` leaves out. -/
theorem encodeText_digits {s : State} (hf : s.fault = false) (v : Value) :
    ∃ ds : List Nat, ds ≠ [] ∧ (∀ d ∈ ds, d < 10) ∧ encodeText s v = ds.map digitChar ∧
      ds.foldl (fun acc d => acc * 10 + d) 0 = v.toNat := by
  rw [TextCodec.encodeTextIsDecimal s v hf]
  by_cases hzero : v.toNat = 0
  · rw [if_pos hzero, hzero]
    exact ⟨[0], by simp, by simp, rfl, rfl⟩
  · have hne : (Nat.digits 10 v.toNat).reverse ≠ [] :=
      mt List.reverse_eq_nil_iff.mp (Nat.digits_ne_nil_iff_ne_zero.mpr hzero)
    exact ⟨_, hne, fun d hd => Nat.digits_lt_base (by decide) (List.mem_reverse.mp hd), if_neg hzero,
      foldl_reverse_digits _⟩

end TextCodec

/-- Settles O50: the text is a digit string of the Value's number, which decodes to that number. -/
theorem textRoundTripGivesTheValueBack : Obligations.TextRoundTripGivesTheValueBack := by
  intro s v hf
  obtain ⟨ds, hne, hdigits, htext, hnumber⟩ := encodeText_digits hf v
  obtain ⟨hdecode, -⟩ := TextCodec.decodeTextIsTheNumberModulo s ds hf hne hdigits
  rw [htext, hdecode, hnumber, Value.ofNat_toNat]

section Causes

variable {i : Instr} {s : State}

/-- An operation ends as R149's table says: it completes where no row of its applies, and faults where one does. -/
def EndsAsTabled (i : Instr) (s : State) : Prop :=
  ((∀ c, ¬ Raises s i c) → ∃ v, Completes i s v) ∧ (∀ c, Raises s i c → FaultsWith i s c)

/-- An operation that is in no row of the table always completes. -/
theorem endsAsTabled_of_finish_ok {v : Value} (hs : exec i s = s.finish (.ok v)) (hraise : ∀ c, ¬ Raises s i c) :
    EndsAsTabled i s :=
  ⟨fun _ => ⟨v, completes_of_finish hs rfl⟩, fun c h => absurd h (hraise c)⟩

/-- An operation in one row of the table ends by that row's condition. -/
theorem endsAsTabled_of_row {c : Cause} {cond : Prop} (hraise : ∀ c', Raises s i c' ↔ c' = c ∧ cond)
    (hcompletes : ¬ cond → ∃ v, Completes i s v) (hfaults : cond → FaultsWith i s c) : EndsAsTabled i s := by
  refine ⟨fun h => hcompletes fun hcond => h c ((hraise c).mpr ⟨rfl, hcond⟩), fun c' h => ?_⟩
  obtain ⟨rfl, hcond⟩ := (hraise c').mp h
  exact hfaults hcond

/-- The same for an operation whose result is one Value wherever it completes. -/
theorem endsAsTabled_of_value {c : Cause} {cond : Prop} {v : Value} (hraise : ∀ c', Raises s i c' ↔ c' = c ∧ cond)
    (h : (¬ cond → Completes i s v) ∧ (cond → FaultsWith i s c)) : EndsAsTabled i s :=
  endsAsTabled_of_row hraise (fun hcond => ⟨v, h.1 hcond⟩) h.2

theorem divw_endsAsTabled (x : Left) (s : State) : EndsAsTabled (.divw x) s := by
  obtain ⟨hcompletes, hzero, hoverflow⟩ := divwWritesQuotientAndRemainder.2 s x
  refine ⟨fun h => ?completes, fun c h => ?faults⟩
  case completes =>
    have hnonzero : (B s).lo.toNat ≠ 0 := fun h0 => h .divZero (.inl ⟨rfl, h0⟩)
    have hfits : (X s x).hi.toNat < (B s).lo.toNat :=
      Nat.not_le.mp fun hle => h .divwOverflow (.inr ⟨rfl, hnonzero, hle⟩)
    obtain ⟨v, hv, -⟩ := hcompletes hfits
    exact ⟨v, hv⟩
  case faults =>
    rcases h with ⟨rfl, h0⟩ | ⟨rfl, hne, hle⟩
    · exact hzero h0
    · exact hoverflow hne hle

theorem cvtf64_endsAsTabled (x : Left) (s : State) : EndsAsTabled (.cvtf64 x) s := by
  obtain ⟨hcompletes, hrange, hnonfinite⟩ := Construction.cvtf64WritesTheIntegerPart.2 s x
  refine ⟨fun h => ?completes, fun c h => ?faults⟩
  case completes =>
    have hfinite : (X s x).lo.toNat / 2 ^ 52 % 2 ^ 11 ≠ 0x7FF := fun h0 => h .fpNonfinite (.inl ⟨rfl, h0⟩)
    have hexp : (X s x).lo.toNat / 2 ^ 52 % 2 ^ 11 < 1203 :=
      Nat.not_le.mp fun hle => h .shiftRange (.inr ⟨rfl, hfinite, hle⟩)
    exact ⟨_, hcompletes hexp⟩
  case faults =>
    rcases h with ⟨rfl, h0⟩ | ⟨rfl, hne, hle⟩
    · exact hnonfinite h0
    · exact hrange hle hne

end Causes

/-- Settles O51, by cases on the command: the commands with a condition by their own statements, the others because they
always complete. -/
theorem everyOtherOperandCombinationCompletes : Obligations.EveryOtherOperandCombinationCompletes := by
  intro i s
  change EndsAsTabled i s
  cases i with
  | divw x => exact divw_endsAsTabled x s
  | cvtf64 x => exact cvtf64_endsAsTabled x s
  | div x => exact endsAsTabled_of_value (fun _ => Iff.rfl) (Arithmetic.divWritesTheQuotient.2 s x)
  | mod x => exact endsAsTabled_of_value (fun _ => Iff.rfl) (Arithmetic.modWritesTheRemainder.2 s x)
  | shl x =>
    have h := ShiftBitwise.shlMultipliesByAPowerOfTwo.2 s x
    rw [← Nat.not_le] at h
    exact endsAsTabled_of_value (fun _ => Iff.rfl) h
  | shr x =>
    have h := ShiftBitwise.shrDividesByAPowerOfTwo.2 s x
    rw [← Nat.not_le] at h
    exact endsAsTabled_of_value (fun _ => Iff.rfl) h
  | cvtf32 x => exact endsAsTabled_of_value (fun _ => Iff.rfl) (Construction.cvtf32WritesTheIntegerPart.2 s x)
  | clz x =>
    obtain ⟨hcompletes, hfaults⟩ := clzCountsLeadingZeros.2 s x
    refine endsAsTabled_of_row (fun _ => Iff.rfl) (fun h => ?_) hfaults
    obtain ⟨n, -, -, -, hn⟩ := hcompletes h
    exact ⟨_, hn⟩
  | mulw x | zero | set x | cvtb x | cvtu8 x | cvtu16 x | cvtu32 x | cvtu64 x | cvts8 x | cvts16 x | cvts32 x
  | cvts64 x | add x | sub x | mul x | and x | or x | xor x | not x | cmp x | eq x | ne x | lt x | le x | gt x | ge x
  | trunc8 x | trunc16 x | trunc32 x | trunc64 x | fcvt32 x | fcvt64 x =>
    exact endsAsTabled_of_finish_ok rfl fun _ => id

end Sys2Proof.Composition

/-! Sixth part: the conversion to floating point (spec/45_conversion_out.md R131 to R134). First nearest representable
numbers as numbers, then the three roundings in any format, then the patterns, then the commands. -/

namespace Sys2Proof.FloatOut

open Sys2Proof.Machine Sys2Proof.Claims Sys2Proof.Primitives

section Representables

variable {p q b k n u w : Nat}

theorem representable_of_lt (h : n < 2 ^ p) : Representable p n :=
  ⟨n, 0, h, by rw [Nat.pow_zero, Nat.mul_one]⟩

theorem representable_two_pow (hp : 1 ≤ p) (k : Nat) : Representable p (2 ^ k) :=
  ⟨1, k, Nat.one_lt_two_pow (by omega), (Nat.one_mul _).symm⟩

theorem representable_mul_two_pow (h : Representable p w) (k : Nat) : Representable p (w * 2 ^ k) := by
  obtain ⟨m, j, hm, rfl⟩ := h
  exact ⟨m, j + k, hm, by rw [Nat.pow_add, Nat.mul_assoc]⟩

/-- The number after the largest significand is a power of two. -/
theorem representable_succ_mul_two_pow (hp : 1 ≤ p) (hq : q < 2 ^ p) : Representable p ((q + 1) * 2 ^ b) := by
  apply representable_mul_two_pow
  rcases Nat.lt_or_eq_of_le (Nat.succ_le_of_lt hq) with h | h
  · exact representable_of_lt h
  · rw [← Nat.succ_eq_add_one, h]
    exact representable_two_pow hp p

/-- Both parts of a representable number cut at a bit are representable. -/
theorem representable_div_mod (h : Representable p n) (k : Nat) :
    Representable p (n / 2 ^ k) ∧ Representable p (n % 2 ^ k) := by
  obtain ⟨m, j, hm, rfl⟩ := h
  rcases Nat.le_total k j with hkj | hjk
  · have hdvd : 2 ^ k ∣ m * 2 ^ j := Nat.dvd_mul_left_of_dvd (Nat.pow_dvd_pow 2 hkj) m
    rw [scale_left m hkj, Nat.mod_eq_zero_of_dvd hdvd]
    exact ⟨⟨m, j - k, hm, rfl⟩, representable_of_lt (Nat.two_pow_pos p)⟩
  · rw [scale_right m hjk, mul_two_pow_mod_two_pow m hjk]
    exact ⟨representable_of_lt (Nat.lt_of_le_of_lt (Nat.div_le_self _ _) hm),
      ⟨_, j, Nat.lt_of_le_of_lt (Nat.mod_le _ _) hm, rfl⟩⟩

theorem representable_hi_lo {x : Value} (h : Representable p x.toNat) :
    Representable p x.hi.toNat ∧ Representable p x.lo.toNat := by
  rw [Value.hi_toNat, Value.lo_toNat]
  exact representable_div_mod h 64

/-- A number has one exponent with which its significand fills `p` bits. -/
theorem exponent_le_of_normalized {m : Nat} (hm : m < 2 ^ p) (hq : 2 ^ (p - 1) ≤ q) (hp : 1 ≤ p)
    (h : m * 2 ^ k = q * 2 ^ b) : b ≤ k := by
  by_contra hlt
  have hstep : 2 ^ p * 2 ^ k ≤ 2 ^ (p - 1) * 2 ^ b := by
    rw [← Nat.pow_add, ← Nat.pow_add]
    exact Nat.pow_le_pow_right (by decide) (by omega)
  have hbelow : m * 2 ^ k < 2 ^ p * 2 ^ k := (Nat.mul_lt_mul_right (Nat.two_pow_pos k)).mpr hm
  have habove : 2 ^ (p - 1) * 2 ^ b ≤ q * 2 ^ b := Nat.mul_le_mul_right _ hq
  omega

/-- A number with an odd significand of `p` bits has no even one. -/
theorem not_evenSignificand_of_odd (hp : 1 ≤ p) (hq : 2 ^ (p - 1) ≤ q) (hq' : q < 2 ^ p) (hodd : q % 2 = 1) :
    ¬ EvenSignificand p (q * 2 ^ b) := by
  rintro ⟨m, k, hm, hm', heven, h⟩
  obtain rfl : k = b :=
    Nat.le_antisymm (exponent_le_of_normalized hq' hm hp h) (exponent_le_of_normalized hm' hq hp h.symm)
  have : q = m := Nat.eq_of_mul_eq_mul_right (Nat.two_pow_pos k) h
  omega

end Representables

section Nearest

variable {p q b u v w : Nat}

/-- Rounding does not pass a representable number above. -/
theorem nearest_le (h : NearestEven p v w) (hu : Representable p u) (hvu : v ≤ u) : w ≤ u := by
  obtain ⟨-, hnear, -⟩ := h
  have hdist := hnear u hu
  unfold absDiff at hdist
  omega

/-- Rounding does not pass a representable number below. -/
theorem le_nearest (h : NearestEven p v w) (hu : Representable p u) (huv : u ≤ v) : u ≤ w := by
  obtain ⟨-, hnear, -⟩ := h
  have hdist := hnear u hu
  unfold absDiff at hdist
  omega

theorem nearest_eq_of_representable (h : NearestEven p v w) (hv : Representable p v) : w = v :=
  Nat.le_antisymm (nearest_le h hv (Nat.le_refl v)) (le_nearest h hv (Nat.le_refl v))

/-- Below the middle of a gap, rounding goes down. -/
theorem nearest_le_of_lt_middle (hp : 1 ≤ p) (hq : 2 ^ (p - 1) ≤ q) (hq' : q < 2 ^ p) (h : NearestEven p v w)
    (hv : v < q * 2 ^ (b + 1) + 2 ^ b) : w ≤ q * 2 ^ (b + 1) := by
  by_contra hlt
  obtain ⟨hw, hnear, -⟩ := h
  have hgap := representable_gap hq hp hw (Nat.not_le.mp hlt)
  have hdist := hnear (q * 2 ^ (b + 1)) ⟨q, b + 1, hq', rfl⟩
  rw [Nat.add_mul, Nat.one_mul, Nat.pow_succ] at hgap
  rw [Nat.pow_succ] at hdist hlt hv
  unfold absDiff at hdist
  omega

/-- From the middle of a gap on, rounding goes up when the number below has an odd significand. -/
theorem le_nearest_of_middle_le (hp : 1 ≤ p) (hq : 2 ^ (p - 1) ≤ q) (hq' : q < 2 ^ p) (hodd : q % 2 = 1)
    (h : NearestEven p v w) (hv : q * 2 ^ (b + 1) + 2 ^ b ≤ v) : (q + 1) * 2 ^ (b + 1) ≤ w := by
  by_contra hlt
  have habove : Representable p ((q + 1) * 2 ^ (b + 1)) := representable_succ_mul_two_pow hp hq'
  have hvlt : v < (q + 1) * 2 ^ (b + 1) := Nat.not_le.mp fun hle => hlt (le_nearest h habove hle)
  obtain ⟨hw, hnear, htie⟩ := h
  have hbelow : w ≤ q * 2 ^ (b + 1) := Nat.not_lt.mp fun hgt => hlt (representable_gap hq hp hw hgt)
  have hdist := hnear _ habove
  have hsucc : (q + 1) * 2 ^ (b + 1) = q * 2 ^ (b + 1) + 2 ^ b + 2 ^ b := by rw [Nat.pow_succ]; ring
  have heq : w = q * 2 ^ (b + 1) := by
    unfold absDiff at hdist
    omega
  have heven := htie _ habove (by omega) (by unfold absDiff at hdist ⊢; omega)
  exact not_evenSignificand_of_odd hp hq hq' hodd (heq ▸ heven)

end Nearest

section Roundings

variable {F : FpFormat} {v w : Nat}

/-- The number of a format for a representable number: +infinity above the largest finite one (R131). -/
def asFpNum (F : FpFormat) (w : Nat) : FpNum := if exceeds F w then .infinity else .finite w

/-- The overflow test compares with the power of two at which the exponents end. -/
theorem exceeds_iff_two_pow_le (hF : F.bias < F.expMax) : exceeds F v = true ↔ 2 ^ (F.expMax - F.bias) ≤ v := by
  rw [exceeds, decide_eq_true_eq]
  by_cases h0 : v = 0
  · have := Nat.two_pow_pos (F.expMax - F.bias)
    rw [h0, Nat.log2_zero]
    omega
  · rw [← Nat.le_log2 h0]
    omega

theorem asFpNum_of_lt (hF : F.bias < F.expMax) (h : v < 2 ^ (F.expMax - F.bias)) : asFpNum F v = .finite v :=
  if_neg fun he => Nat.not_le.mpr h ((exceeds_iff_two_pow_le hF).mp he)

theorem asFpNum_of_le (hF : F.bias < F.expMax) (h : 2 ^ (F.expMax - F.bias) ≤ v) : asFpNum F v = .infinity :=
  if_pos ((exceeds_iff_two_pow_le hF).mpr h)

theorem roundTo_representable (hmw : 1 ≤ F.mw.val) (hw : Representable (F.mw.val + 1) w) :
    roundTo nearestEven F w = asFpNum F w := by
  obtain ⟨w', hnear, hround⟩ := roundTo_nearestEven hmw w
  rw [hround, nearest_eq_of_representable hnear hw]
  rfl

/-- A word's nearest number is at most 2^64. -/
theorem nearest_word_le (hmw : 1 ≤ F.mw.val) {u : Word} (h : NearestEven (F.mw.val + 1) u.toNat w) : w ≤ 2 ^ 64 :=
  nearest_le h (representable_two_pow (by omega) 64) (Nat.le_of_lt u.isLt)

/-- `cvt_F` of a word is its nearest number, never an infinity. -/
theorem cvtF_nearest (hmw : 1 ≤ F.mw.val) (hF : F.bias + 64 < F.expMax) (u : Word) :
    ∃ w, NearestEven (F.mw.val + 1) u.toNat w ∧ cvtF nearestEven F u = .finite w := by
  obtain ⟨w, hnear, hround⟩ := roundTo_nearestEven hmw u.toNat
  have hlt : w < 2 ^ (F.expMax - F.bias) :=
    Nat.lt_of_le_of_lt (nearest_word_le hmw hnear) (Nat.pow_lt_pow_right (by decide) (by omega))
  exact ⟨w, hnear, hround.trans (asFpNum_of_lt (by omega) hlt)⟩

/-- `add_F` of a representable first summand, as the format holds it, and a finite second one: an infinite summand means
an infinite sum. -/
theorem addF_asFpNum (hmw : 1 ≤ F.mw.val) (hF : F.bias < F.expMax) (hv : Representable (F.mw.val + 1) v) (w : Nat) :
    ∃ t, NearestEven (F.mw.val + 1) (v + w) t ∧ addF nearestEven F (asFpNum F v) (.finite w) = asFpNum F t := by
  obtain ⟨t, hnear, hround⟩ := roundTo_nearestEven hmw (v + w)
  refine ⟨t, hnear, ?_⟩
  rcases Nat.lt_or_ge v (2 ^ (F.expMax - F.bias)) with hlt | hge
  · rw [asFpNum_of_lt hF hlt]
    exact hround
  · have hvt : v ≤ t := le_nearest hnear hv (Nat.le_add_right v w)
    rw [asFpNum_of_le hF hge, asFpNum_of_le hF (Nat.le_trans hge hvt)]
    rfl

/-- R132's three steps round three times, and only the last can end beyond the format. -/
theorem u128ToFp_nearest (hmw : 1 ≤ F.mw.val) (hF : F.bias + 64 < F.expMax) (x : Value) :
    ∃ h l t, NearestEven (F.mw.val + 1) x.hi.toNat h ∧ NearestEven (F.mw.val + 1) x.lo.toNat l ∧
      NearestEven (F.mw.val + 1) (h * 2 ^ 64 + l) t ∧ u128ToFp nearestEven F x = asFpNum F t := by
  obtain ⟨h, hh, ehi⟩ := cvtF_nearest hmw hF x.hi
  obtain ⟨l, hl, elo⟩ := cvtF_nearest hmw hF x.lo
  have hscaled : Representable (F.mw.val + 1) (h * 2 ^ 64) := representable_mul_two_pow hh.1 64
  obtain ⟨t, ht, esum⟩ := addF_asFpNum hmw (by omega) hscaled l
  refine ⟨h, l, t, hh, hl, ht, ?_⟩
  rw [u128ToFp, ehi, elo, mulF, roundTo_representable hmw hscaled]
  exact esum

/-- Words and Values that the significand holds convert exactly, whatever FP_ROUND is (R132). -/
theorem roundTo_exact (rnd : FpRound) (hF : F.bias + 128 ≤ F.expMax) (hw : Representable (F.mw.val + 1) w)
    (hlt : w < 2 ^ 128) : roundTo rnd F w = .finite w := by
  apply roundTo_of_representable rnd hw
  rw [← Bool.not_eq_true, exceeds_iff_two_pow_le (by omega), Nat.not_le]
  exact Nat.lt_of_lt_of_le hlt (Nat.pow_le_pow_right (by decide) (by omega))

theorem cvtF_exact (rnd : FpRound) (hF : F.bias + 128 ≤ F.expMax) {u : Word}
    (hu : Representable (F.mw.val + 1) u.toNat) : cvtF rnd F u = .finite u.toNat :=
  roundTo_exact rnd hF hu (by omega)

theorem u128ToFp_exact (rnd : FpRound) (hF : F.bias + 128 ≤ F.expMax) {x : Value}
    (hx : Representable (F.mw.val + 1) x.toNat) : u128ToFp rnd F x = .finite x.toNat := by
  obtain ⟨hhi, hlo⟩ := representable_hi_lo hx
  have hsum : x.hi.toNat * 2 ^ 64 + x.lo.toNat = x.toNat := Nat.add_comm _ _
  have hlt := x.toNat_lt
  rw [u128ToFp, cvtF_exact rnd hF hhi, cvtF_exact rnd hF hlo, mulF,
    roundTo_exact rnd hF (representable_mul_two_pow hhi 64) (by omega), addF, hsum, roundTo_exact rnd hF hx hlt]

end Roundings

section Patterns

variable {t : Nat}

/-- An equation of a number with its significand is kept by a bias on the exponent. -/
theorem scale_by_bias {m k mw bias e : Nat} (h : m * 2 ^ k = t * 2 ^ mw) (he : mw + bias = e) :
    m * 2 ^ (k + bias) = t * 2 ^ e := by
  rw [Nat.pow_add, ← Nat.mul_assoc, h, Nat.mul_assoc, ← Nat.pow_add, he]

/-- A binary32 number's pattern is the one the statements describe (R67, R132). -/
theorem isPattern32_fjoin32 (ht : Representable 24 t) :
    IsPattern32 t (fjoin32 (fpFields binary32 (asFpNum binary32 t))).toNat := by
  rcases Nat.lt_or_ge t (2 ^ 128) with hlt | hge
  · rw [asFpNum_of_lt (by decide) hlt]
    by_cases h0 : t = 0
    · subst h0
      exact .inl ⟨rfl, rfl⟩
    · obtain ⟨hsign, hexp, hman, hnumber⟩ := fpFields_spec (F := binary32) h0 ht
      have hlog : t.log2 < 128 := (Nat.log2_lt h0).mpr hlt
      change _ = t.log2 + 127 at hexp
      change _ < 2 ^ 23 at hman
      change (2 ^ 23 + _) * 2 ^ t.log2 = t * 2 ^ 23 at hnumber
      refine .inr (.inr ⟨Nat.pos_of_ne_zero h0, hlt, t.log2 + 127, _, by omega, hman, ?_, scale_by_bias hnumber rfl⟩)
      rw [fjoin32_toNat hsign (by omega) hman, hexp]
  · rw [asFpNum_of_le (by decide) hge]
    exact .inr (.inl ⟨hge, rfl⟩)

/-- A binary64 number's pattern is the one the statements describe (R68, R132). -/
theorem isPattern64_fjoin64 (ht : Representable 53 t) (hlt : t < 2 ^ (binary64.expMax - binary64.bias)) :
    IsPattern64 t (fjoin64 (fpFields binary64 (asFpNum binary64 t))).toNat := by
  rw [asFpNum_of_lt (by decide) hlt]
  by_cases h0 : t = 0
  · subst h0
    exact .inl ⟨rfl, rfl⟩
  · obtain ⟨hsign, hexp, hman, hnumber⟩ := fpFields_spec (F := binary64) h0 ht
    have hlog : t.log2 < binary64.expMax - binary64.bias := (Nat.log2_lt h0).mpr hlt
    change t.log2 < 1024 at hlog
    change _ = t.log2 + 1023 at hexp
    change _ < 2 ^ 52 at hman
    change (2 ^ 52 + _) * 2 ^ t.log2 = t * 2 ^ 52 at hnumber
    refine .inr ⟨Nat.pos_of_ne_zero h0, t.log2 + 1023, _, by omega, hman, ?_, scale_by_bias hnumber rfl⟩
    rw [fjoin64_toNat hsign (by omega) hman, hexp]

/-- The pattern of a number below 2^128 is below that of +infinity. -/
theorem pattern32_lt_infinity {p : Nat} (hp : IsPattern32 t p) (ht : t < 2 ^ 128) : p < 0x7F800000 := by
  rcases hp with ⟨-, rfl⟩ | ⟨hge, -⟩ | ⟨-, -, exp, man, hexp, hman, rfl, -⟩
  · decide
  · omega
  · omega

theorem pattern32_eq_infinity {p : Nat} (hp : IsPattern32 t p) (ht : 2 ^ 128 ≤ t) : p = 0x7F800000 := by
  rcases hp with ⟨rfl, -⟩ | ⟨-, hp⟩ | ⟨-, hlt, -⟩
  · exact absurd ht (by decide)
  · exact hp
  · omega

/-- A pattern of at most 64 bits, zero-extended to `R`, is its number (R133, R134). -/
theorem valueOfWord_setWidth {n : Nat} (hn : n ≤ 64) (u : BitVec n) :
    valueOfWord (u.setWidth 64) = Value.ofNat u.toNat := by
  have hlt : u.toNat < 2 ^ 64 := Nat.lt_of_lt_of_le u.isLt (Nat.pow_le_pow_right (by decide) hn)
  rw [← valueOfWord_ofNat hlt, BitVec.ofNat_toNat]

end Patterns

section Commands

variable (s : State) (x : Left)

theorem exec_fcvt32 : exec (.fcvt32 x) s = s.finish (.ok (Value.ofNat (u128ToBinary32 nearestEven (X s x)).toNat)) := by
  rw [← valueOfWord_setWidth (by decide), Noninterference.X_eq_left]
  rfl

theorem exec_fcvt64 : exec (.fcvt64 x) s = s.finish (.ok (Value.ofNat (u128ToBinary64 nearestEven (X s x)).toNat)) := by
  rw [← valueOfWord_setWidth (Nat.le_refl 64), BitVec.setWidth_eq, Noninterference.X_eq_left]
  rfl

end Commands

/-- Settles O44: three roundings give a number of 24 significand bits, and the fields of that number its pattern. -/
theorem fcvt32RoundsThreeTimes : Obligations.Fcvt32RoundsThreeTimes := by
  refine ⟨Construction.hasWords_of_encode Laws.DecodeEncode.fcvt32 rfl rfl, fun s x => ?_⟩
  obtain ⟨h, l, t, hh, hl, ht, hnum⟩ := u128ToFp_nearest (F := binary32) (by decide) (by decide) (X s x)
  refine ⟨h, l, t, _, hh, hl, ht, ?pattern, completes_of_finish (exec_fcvt32 s x) rfl⟩
  case pattern =>
    rw [u128ToBinary32, hnum]
    exact isPattern32_fjoin32 ht.1

/-- Settles O45: the same with 53 bits; the rounded number is at most 2^129, far below the end of the exponents. -/
theorem fcvt64RoundsThreeTimes : Obligations.Fcvt64RoundsThreeTimes := by
  refine ⟨Construction.hasWords_of_encode Laws.DecodeEncode.fcvt64 rfl rfl, fun s x => ?_⟩
  obtain ⟨h, l, t, hh, hl, ht, hnum⟩ := u128ToFp_nearest (F := binary64) (by decide) (by decide) (X s x)
  have hh64 : h ≤ 2 ^ 64 := nearest_word_le (F := binary64) (by decide) hh
  have hl64 : l ≤ 2 ^ 64 := nearest_word_le (F := binary64) (by decide) hl
  have ht129 : t ≤ 2 ^ 129 := nearest_le ht (representable_two_pow (by decide) 129) (by omega)
  refine ⟨h, l, t, _, hh, hl, ht, ?pattern, completes_of_finish (exec_fcvt64 s x) rfl⟩
  case pattern =>
    rw [u128ToBinary64, hnum]
    exact isPattern64_fjoin64 ht.1 (Nat.lt_of_le_of_lt ht129 (Nat.pow_lt_pow_right (by decide) (by decide)))

/-- Settles O46: every step of an exact conversion meets a representable number, where FP_ROUND is not asked. -/
theorem exactConversionsHoldForEveryRounding : Obligations.ExactConversionsHoldForEveryRounding := by
  intro rnd x
  have hlt := x.toNat_lt
  refine ⟨cvtF_exact (F := binary32) rnd (by decide), cvtF_exact (F := binary32) rnd (by decide),
    cvtF_exact (F := binary64) rnd (by decide), cvtF_exact (F := binary64) rnd (by decide), ?pattern32, ?pattern64⟩
  case pattern32 =>
    intro hx
    have hpattern := isPattern32_fjoin32 hx
    rw [asFpNum_of_lt (by decide) hlt, ← u128ToFp_exact rnd (F := binary32) (by decide) hx] at hpattern
    exact hpattern
  case pattern64 =>
    intro hx
    have hlt' : x.toNat < 2 ^ (binary64.expMax - binary64.bias) :=
      Nat.lt_trans hlt (Nat.pow_lt_pow_right (by decide) (by decide))
    have hpattern := isPattern64_fjoin64 hx hlt'
    rw [asFpNum_of_lt (by decide) hlt', ← u128ToFp_exact rnd (F := binary64) (by decide) hx] at hpattern
    exact hpattern

/-- Settles O47: the threshold is the middle of the gap below 2^64, a tie that goes up. From it on `X.hi` rounds to 2^64
and the sum is 2^128 or more; below it the sum stays under the middle of the gap below 2^128. -/
theorem fcvt32OverflowsToInfinity : Obligations.Fcvt32OverflowsToInfinity := by
  intro s x
  obtain ⟨h, l, t, p, hh, hl, ht, hp, hcompletes⟩ := fcvt32RoundsThreeTimes.2 s x
  refine ⟨fun hge => ?infinite, fun hlt => ⟨p, ?finite, hcompletes⟩⟩
  case infinite =>
    have hh64 : 2 ^ 64 ≤ h :=
      le_nearest_of_middle_le (q := 2 ^ 24 - 1) (b := 39) (by decide) (by decide) (by decide) (by decide) hh hge
    have ht128 : 2 ^ 128 ≤ t := le_nearest ht (representable_two_pow (by decide) 128) (by omega)
    rw [pattern32_eq_infinity hp ht128] at hcompletes
    exact hcompletes
  case finite =>
    have hh64 : h ≤ (2 ^ 24 - 1) * 2 ^ 40 :=
      nearest_le_of_lt_middle (q := 2 ^ 24 - 1) (b := 39) (by decide) (by decide) (by decide) hh hlt
    have hl64 : l ≤ 2 ^ 64 := nearest_word_le (F := binary32) (by decide) hl
    have ht128 : t ≤ (2 ^ 24 - 1) * 2 ^ 104 :=
      nearest_le_of_lt_middle (q := 2 ^ 24 - 1) (b := 103) (by decide) (by decide) (by decide) ht (by omega)
    exact pattern32_lt_infinity hp (by omega)

end Sys2Proof.FloatOut
